-- ==== Sys2Proof/Word.lean ====
section
/-! DEFINITION. The widths of the SipHashEngine's values (R5, R8 of spec/00_scope.md): every value is an unsigned bit vector, bit 0 the least significant. -/

namespace Sys2Proof

/-- A state word, key word, block or digest: `u64` (R5). -/
abbrev Word := BitVec 64

/-- A 32-bit integer message or a narrowed digest: `u32` (R18, R20). -/
abbrev Half := BitVec 32

/-- A byte of the message buffer: `u8` (R31). -/
abbrev Byte := BitVec 8

/-- The packed key field of a command (R47). -/
abbrev Key := BitVec 256

end Sys2Proof
end

