-- ==== Sys2Proof/Syntax.lean ====
section
/-! DEFINITION. The command record CMD (R47 of spec/30_encoding.md) and the operations it spells (R50, R51): one constructor of `Instr` per row of spec/opcode_table.json. -/

namespace Sys2Proof

/-- Format `CMD`: the operand ports of one command (R14 of spec/10_state.md, R47). The ports are separate
fields: no bit position is defined across them. `LEN` is a natural number with no maximum (R48; log
entry 7) and `DATA` is the list of the buffer's bytes in address order. -/
structure Cmd where
  op   : BitVec 3
  key  : Key
  num  : Word
  m    : Word
  len  : Nat
  data : List Byte
  deriving DecidableEq, Repr

/-- The six operations with the operands each reads (R51). The message of `siphash` and `sipmod` is the
address space of the command (R31 of spec/20_memory.md): their constructor holds its length, and its
bytes are read from memory (log entry 4). -/
inductive Instr where
  /-- SIPHASH (R81). -/
  | siphash (k0 k1 : Word) (len : Nat)
  /-- SIPHASH32 (R83). -/
  | siphash32 (k0 k1 : Word) (num : Half)
  /-- SIPHASH64 (R85). -/
  | siphash64 (k0 k1 : Word) (num : Word)
  /-- SIPHASH32K256 (R87). -/
  | siphash32k256 (k0 k1 k2 k3 : Word) (num : Half)
  /-- SIPHASH64K256 (R89). -/
  | siphash64k256 (k0 k1 k2 k3 : Word) (num : Word)
  /-- SIPMOD (R91). -/
  | sipmod (k0 k1 : Word) (len : Nat) (m : Word)
  deriving DecidableEq, Repr

end Sys2Proof
end

