-- ==== Sys2Proof/WellFormed.lean ====
section
/-! DEFINITION. Which commands are commands of this engine: `DATA` has exactly `LEN` bytes (R17 of spec/10_state.md, R105 of spec/60_exceptions.md), and the operation code is not reserved (R55 of spec/30_encoding.md). -/

namespace Sys2Proof

/-- The length operand of the operations that read the message buffer (R51). -/
def Instr.messageLength : Instr → Option Nat
  | .siphash _ _ len => some len
  | .siphash32 _ _ _ => none
  | .siphash64 _ _ _ => none
  | .siphash32k256 _ _ _ _ _ => none
  | .siphash64k256 _ _ _ _ _ => none
  | .sipmod _ _ len _ => some len

/-- An instruction presented with the bytes `data` is well formed when its `LEN` operand, if it has one, is
their number (R17). -/
def Instr.wellFormed (i : Instr) (data : List Byte) : Bool :=
  match i.messageLength with
  | some len => len == data.length
  | none => true

/-- A command record is well formed when its `OP` is one of the six (R50, R55) and, for the two operations that
read the buffer, its `LEN` is the size of its `DATA` (R17, R105). -/
def Cmd.wellFormed (c : Cmd) : Bool :=
  (c.op.toNat < 6) && ((c.op != 0#3 && c.op != 5#3) || c.len == c.data.length)

end Sys2Proof
end

