-- ==== Sys2Proof/Decode.lean ====
section
/-! DEFINITION. Decoding a command record into an instruction (R50 to R55 of spec/30_encoding.md), total, rejecting by name; the encoder; and the instruction a word of spec/opcode_table.json stands for. -/

namespace Sys2Proof

/-- Why a record is no command of this engine (R99, R105 of spec/60_exceptions.md). -/
inductive DecodeError where
  /-- `OP` is 6 or 7 (R55, U1). -/
  | reservedOp (op : BitVec 3)
  /-- `DATA` does not have `LEN` bytes (R17, U3). -/
  | lengthMismatch (len size : Nat)
  deriving DecidableEq, Repr

/-- `k_j = KEY[64j+63 : 64j]` (R47). -/
def keyWord (key : Key) (j : Nat) : Word := key.extractLsb' (64 * j) 64

/-- The 256-bit key field that holds the four words (R47). -/
def packKey (k0 k1 k2 k3 : Word) : Key :=
  k0.setWidth 256 ||| k1.setWidth 256 <<< 64 ||| k2.setWidth 256 <<< 128 ||| k3.setWidth 256 <<< 192

/-- `NUM[31:0]`, the integer of the 32-bit operations (R52 (b)). -/
def lowHalf (num : Word) : Half := num.extractLsb' 0 32

/-- Accept an instruction that reads the buffer only if `DATA` has exactly `LEN` bytes (R17, R105). -/
def decodeMessage (c : Cmd) (i : Instr) : Except DecodeError Instr :=
  if c.len = c.data.length then .ok i else .error (.lengthMismatch c.len c.data.length)

/-- The operation-code map (R50) with the operands each operation reads (R51, R52); every other field is
ignored (R53). Codes 6 and 7 are reserved and refused (R55). -/
def decode (c : Cmd) : Except DecodeError Instr :=
  match c.op.toNat with
  | 0 => decodeMessage c (.siphash (keyWord c.key 0) (keyWord c.key 1) c.len)
  | 1 => .ok (.siphash32 (keyWord c.key 0) (keyWord c.key 1) (lowHalf c.num))
  | 2 => .ok (.siphash64 (keyWord c.key 0) (keyWord c.key 1) c.num)
  | 3 => .ok (.siphash32k256 (keyWord c.key 0) (keyWord c.key 1) (keyWord c.key 2) (keyWord c.key 3) (lowHalf c.num))
  | 4 => .ok (.siphash64k256 (keyWord c.key 0) (keyWord c.key 1) (keyWord c.key 2) (keyWord c.key 3) c.num)
  | 5 => decodeMessage c (.sipmod (keyWord c.key 0) (keyWord c.key 1) c.len c.m)
  | _ => .error (.reservedOp c.op)

/-- The record of an instruction, with `data` on the `DATA` port where the operation reads it (R47, R50).
Fields the operation does not read may hold anything (R53); here they hold zero or no byte (log entry 14). -/
def encode (i : Instr) (data : List Byte) : Cmd :=
  match i with
  | .siphash k0 k1 len => ⟨0#3, packKey k0 k1 0#64 0#64, 0#64, 0#64, len, data⟩
  | .siphash32 k0 k1 num => ⟨1#3, packKey k0 k1 0#64 0#64, num.setWidth 64, 0#64, 0, []⟩
  | .siphash64 k0 k1 num => ⟨2#3, packKey k0 k1 0#64 0#64, num, 0#64, 0, []⟩
  | .siphash32k256 k0 k1 k2 k3 num => ⟨3#3, packKey k0 k1 k2 k3, num.setWidth 64, 0#64, 0, []⟩
  | .siphash64k256 k0 k1 k2 k3 num => ⟨4#3, packKey k0 k1 k2 k3, num, 0#64, 0, []⟩
  | .sipmod k0 k1 len m => ⟨5#3, packKey k0 k1 0#64 0#64, 0#64, m, len, data⟩

/-- The command a word of spec/opcode_table.json stands for. The table numbers the bits of `OP` alone (its mask
is `OP[2:0]`; R47 defines no bit position across fields), so bits 2..0 of the word are `OP`, the bits of the table's
byte above them belong to no field and are dropped, and every other field is zero (log entry 13). -/
def tableCmd (nbits w : Nat) : Cmd :=
  ⟨BitVec.ofNat 3 (w % 2 ^ nbits), 0#256, 0#64, 0#64, 0, []⟩

/-- What `decode` reads from a word of spec/opcode_table.json. -/
def decodeTableWord (nbits w : Nat) : Option Instr := (decode (tableCmd nbits w)).toOption

end Sys2Proof
end

