-- ==== Sys2Proof/Config.lean ====
section
/-! DEFINITION. What an engine instance fixes and the specification leaves open (R6 of spec/00_scope.md), and the free values. The decided parameters K256_INIT and REDUCE are functions in Sys2Proof/Machine/Datapath.lean. -/

namespace Sys2Proof

/-- The two admissible values of the OPEN parameter `NARROW32` (R76 of spec/40_sipcore.md). -/
inductive NarrowMode where
  /-- `TRUNC_LOW`: the low half of the digest. -/
  | truncLow
  /-- `XOR_FOLD`: the exclusive-or of the digest's two halves. -/
  | xorFold
  deriving DecidableEq, Repr, Inhabited

/-- The instance's `NARROW32` (R6, R76, D1). It is OPEN, so it has no value in the model: whatever is
proved of the machine holds for both. DESIGN CHOICE (log entry 6), safe. -/
opaque Config.narrow32 : NarrowMode

/-- Free values of the working words, one for each index: what `v[0..3]` hold after reset and between
commands (R29 of spec/10_state.md, U7). Nothing constrains them. DESIGN CHOICE (log entry 3), safe. -/
opaque Config.freeWord : Nat → Word

end Sys2Proof
end

