-- ==== Sys2Proof/Machine/State.lean ====
section
/-! DEFINITION. The machine's state as plain data: the commands the host has issued, the message buffer of the current command, the four working words, the delivered responses, the reset input; the reasons a step can stop; and the state after reset. -/

namespace Sys2Proof.Machine

/-- A state of the datapath: the four 64-bit working words `v[0..3]` (R21 of spec/10_state.md, R62 of spec/40_sipcore.md). -/
structure Words where
  v0 : Word
  v1 : Word
  v2 : Word
  v3 : Word
  deriving DecidableEq, Repr

/-- The value of an `Ok` response: `u64`, or `u32` for the 32-bit operations (R20 of spec/10_state.md). -/
inductive Value where
  | u64 (x : Word)
  | u32 (x : Half)
  deriving DecidableEq, Repr

/-- The closed error type, with its one constructor (R94, R95 of spec/60_exceptions.md). -/
inductive Error where
  | invalidArgument
  deriving DecidableEq, Repr

/-- The response of a command (R20, R49). An error carries no value (U4). -/
inductive Response where
  | ok (value : Value)
  | err (error : Error)
  deriving DecidableEq, Repr

/-- The message buffer: the listed addresses exist and hold a byte; an unlisted address does not exist, so reading
it gives no value (R31, R33 of spec/20_memory.md). -/
abbrev Memory := List Host.Cell

/-- The canonical form of a memory: addresses strictly rising. (An unlisted address reads as no value, so no entry can equal it.) -/
def Memory.wf : Memory → Bool
  | [] => true
  | (a, _) :: rest => (match rest with | [] => true | (b, _) :: _ => decide (a < b)) && Memory.wf rest

/-- Why the machine stops with a fault. -/
inductive Fault where
  /-- Raised by `memRead` on an address outside the message buffer, where the specification defines no read
  (R33 of spec/20_memory.md). No rule issues such a read, and no step from any state does. Safe. -/
  | outOfBuffer (addr : Nat)
  deriving DecidableEq, Repr

/-- Why a command is refused. -/
inductive Refusal where
  /-- Raised by an arm of `exec` that has no meaning yet; no arm is in that case. Safe. -/
  | notModelled (mnemonic : String)
  /-- Raised by `step` on a record whose `OP` is 6 or 7: it spells no operation and has no defined response
  (R55 of spec/30_encoding.md, U1). Safe. -/
  | reservedOp (op : BitVec 3)
  /-- Raised by `step` on a record, and by `execSiphash` and `execSipmod` on a buffer, whose size is not `LEN`: not a
  command of this engine (R17 of spec/10_state.md, R105 of spec/60_exceptions.md, U3). Safe. -/
  | lengthMismatch (len size : Nat)
  deriving DecidableEq, Repr

/-- The machine. The engine itself keeps nothing between commands (R13 of spec/10_state.md): `pending` and `responses`
are the host's side of the interface, `buf` and `v` belong to the command being evaluated, `draws` is the model's own. -/
structure State where
  /-- The commands the host has issued and the engine has not taken, oldest first (R46, R118, R124). -/
  pending : List Cmd
  /-- The message buffer of the current command (R31). -/
  buf : Memory
  /-- The working words (R21). -/
  v : Words
  /-- The responses delivered, oldest first (R20, R49, R124). -/
  responses : List Response
  /-- The host is applying reset (R112, R114). -/
  resetLine : Bool
  /-- The model's own counter: the index of the next free value (log entry 3). -/
  draws : Nat
  deriving DecidableEq, Repr

/-- Right after reset (R29, R112): nothing issued, no pending response, no buffer, the working words unspecified
(free values, log entry 3). -/
def State.reset : State where
  pending := []
  buf := []
  v := ⟨Config.freeWord 0, Config.freeWord 1, Config.freeWord 2, Config.freeWord 3⟩
  responses := []
  resetLine := false
  draws := 4

end Sys2Proof.Machine
end

