-- ==== Sys2Proof/Machine/Datapath.lean ====
section
/-! DEFINITION. The pure functions of the shared datapath (spec/40_sipcore.md): constants, SipRound, the key schedules, Compress, Finalize, Narrow32, Reduce. The constants, the body of SipRound and the assignment of key words are the specification's, which marks them as general knowledge (log entry 9). -/

namespace Sys2Proof.Machine

/-- `rotl64(a, n)` for 1 ≤ n ≤ 63 (R9 of spec/00_scope.md, R79). -/
def rotl64 (a : Word) (n : Nat) : Word := (a <<< n) ||| (a >>> (64 - n))

/-- Initialisation constant `c0` (R61). -/
def c0 : Word := 0x736f6d6570736575#64

/-- Initialisation constant `c1` (R61). -/
def c1 : Word := 0x646f72616e646f6d#64

/-- Initialisation constant `c2` (R61). -/
def c2 : Word := 0x6c7967656e657261#64

/-- Initialisation constant `c3` (R61). -/
def c3 : Word := 0x7465646279746573#64

/-- The finalization constant (R69). -/
def finalConstant : Word := 0x00000000000000ff#64

/-- `SipRound(v)`: the 14 steps of R63, in order. Addition is modulo 2^64, its carry discarded (R78). -/
def sipRound (v : Words) : Words :=
  let v0 := v.v0
  let v1 := v.v1
  let v2 := v.v2
  let v3 := v.v3
  let v0 := v0 + v1
  let v1 := rotl64 v1 13
  let v1 := v1 ^^^ v0
  let v0 := rotl64 v0 32
  let v2 := v2 + v3
  let v3 := rotl64 v3 16
  let v3 := v3 ^^^ v2
  let v0 := v0 + v3
  let v3 := rotl64 v3 21
  let v3 := v3 ^^^ v0
  let v2 := v2 + v1
  let v1 := rotl64 v1 17
  let v1 := v1 ^^^ v2
  let v2 := rotl64 v2 32
  ⟨v0, v1, v2, v3⟩

/-- `Init128(k0, k1)`, the standard key schedule (R65). -/
def init128 (k0 k1 : Word) : Words := ⟨c0 ^^^ k0, c1 ^^^ k1, c2 ^^^ k0, c3 ^^^ k1⟩

/-- `Init256(k0, k1, k2, k3)`: the parameter `K256_INIT`, fixed by decision D2 and confirmed by no vector (R6, R67; log entry 8). -/
def k256Init (k0 k1 k2 k3 : Word) : Words := ⟨c0 ^^^ k0, c1 ^^^ k1, c2 ^^^ k2, c3 ^^^ k3⟩

/-- `Compress(v, m)`: absorb one block with `C_ROUNDS = 2` rounds (R68, R5). -/
def compress (v : Words) (m : Word) : Words :=
  let w := sipRound (sipRound ⟨v.v0, v.v1, v.v2, v.v3 ^^^ m⟩)
  ⟨w.v0 ^^^ m, w.v1, w.v2, w.v3⟩

/-- The working words at the end of `Finalize`: the constant into `v[2]`, then `D_ROUNDS = 4` rounds (R69, R5). -/
def finalizeRounds (v : Words) : Words :=
  sipRound (sipRound (sipRound (sipRound ⟨v.v0, v.v1, v.v2 ^^^ finalConstant, v.v3⟩)))

/-- The exclusive-or of the four working words (R69). -/
def xorWords (v : Words) : Word := v.v0 ^^^ v.v1 ^^^ v.v2 ^^^ v.v3

/-- `Narrow32(h)` under each value of `NARROW32` (R76). -/
def narrow32 (mode : NarrowMode) (h : Word) : Half :=
  match mode with
  | .truncLow => h.extractLsb' 0 32
  | .xorFold => h.extractLsb' 32 32 ^^^ h.extractLsb' 0 32

/-- `Reduce(h, m)`: the high 64 bits of the exact 128-bit product, the parameter `REDUCE` (R6, R77, R80, D9; log entry 8). -/
def reduce (h m : Word) : Word := (h.setWidth 128 * m.setWidth 128).extractLsb' 64 64

end Sys2Proof.Machine
end

