-- ==== Sys2Proof/Machine/Ops.lean ====
section
/-! DEFINITION. The named operations over the state: the message buffer and `MemRead`, the working words, taking the next command, applying reset, delivering a response, and raising the one exception (spec/20_memory.md, spec/60_exceptions.md, spec/70_reset_and_hazards.md). -/

namespace Sys2Proof.Machine

/-! The message buffer -/

/-- The byte at an address, if the address exists (R31). -/
def readByte (buf : Memory) (a : Nat) : Option Byte :=
  match buf with
  | [] => none
  | (b, x) :: rest => if b = a then some x else readByte rest a

/-- The cells of bytes laid out from address `base` upward. -/
def bytesFrom (base : Nat) (data : List Byte) : Memory :=
  match data with
  | [] => []
  | x :: rest => (base, x) :: bytesFrom (base + 1) rest

/-- The address space of a command: byte `DATA[a]` at address `a` (R31). -/
def bufferOf (data : List Byte) : Memory := bytesFrom 0 data

/-- `MemRead(addr, n)`: `n` bytes, the one at the lowest address least significant (R33, R34). Where a byte is outside
the buffer the specification defines no read: a fault that names the first such address. -/
def memRead (buf : Memory) (addr : Nat) : (n : Nat) → Except Fault (BitVec (8 * n))
  | 0 => .ok 0#0
  | n + 1 =>
    match readByte buf addr with
    | none => .error (.outOfBuffer addr)
    | some b =>
      match memRead buf (addr + 1) n with
      | .error f => .error f
      | .ok rest => .ok ((rest ++ b : BitVec (8 * n + 8)))

/-! The working words -/

/-- All four working words written (R65, R67: the previous contents are not read). -/
def setWords (w : Words) (s : State) : State := { s with v := w }

/-- `v <- Compress(v, m)` on the working words of the state (R68). -/
def compressWords (m : Word) (s : State) : State := setWords (compress s.v m) s

/-- `Finalize` on the working words of the state: the digest, and the state with the words it leaves (R69). -/
def finalizeWords (s : State) : Word × State :=
  let w := finalizeRounds s.v
  (xorWords w, setWords w s)

/-- What the working words hold is unspecified (R29, U7): each becomes a fresh free value. -/
def scrambleWords (s : State) : State :=
  { s with
    v := ⟨Config.freeWord s.draws, Config.freeWord (s.draws + 1), Config.freeWord (s.draws + 2), Config.freeWord (s.draws + 3)⟩
    draws := s.draws + 4 }

/-! Responses and the exception -/

/-- Hand one response to the host (R20, R124). -/
def respond (r : Response) (s : State) : State := { s with responses := s.responses ++ [r] }

/-- The end of a command that hashed: the response leaves and the working words are unspecified (R22, U7). -/
def retire (r : Response) (s : State) : State := respond r (scrambleWords s)

/-- `raise InvalidArgument` (R96, R97, R100): the command ends at once, its response is the error with no value, and
nothing else changes: no state is saved, no mode, mask or address is touched. There is no return from it (R102). -/
def raiseInvalidArgument (s : State) : State := respond (.err .invalidArgument) s

/-! The host's side -/

/-- Take the oldest command the host has issued: its `DATA` becomes the address space, sampled as of its issue (R31,
R39). -/
def takeCommand (s : State) : Option (Cmd × State) :=
  match s.pending with
  | [] => none
  | c :: rest => some (c, { s with pending := rest, buf := bufferOf c.data })

/-- The host issues a command: it waits behind those issued before it (R46, R118). -/
def issue (c : Cmd) (s : State) : State := { s with pending := s.pending ++ [c] }

/-- Reset while a command is being evaluated (R114, U8): that command is abandoned with no response, and the working
words are unspecified. With no command under way reset establishes nothing a command can observe (R112). The input
is taken (log entry 5). -/
def applyReset (s : State) : State :=
  scrambleWords { s with pending := s.pending.tail, buf := [], resetLine := false }

/-- The refusal of a record the decoder rejects (R55, R105). -/
def refusalOf (e : DecodeError) : Refusal :=
  match e with
  | .reservedOp op => .reservedOp op
  | .lengthMismatch len size => .lengthMismatch len size

end Sys2Proof.Machine
end

