-- ==== Sys2Proof/Machine/Operands.lean ====
section
/-! DEFINITION. Operand assembly: blocks of the message buffer (R70, R71 of spec/40_sipcore.md), blocks of integer messages (R72), little-endian byte strings (R10 of spec/00_scope.md) and key strings (R36 of spec/20_memory.md). There are no immediates and no register operands (R52, R24). -/

namespace Sys2Proof.Machine

/-- `NBlocks(LEN)`, the number of full blocks (R70). -/
def nBlocks (len : Nat) : Nat := len / 8

/-- `Block(i) = MemRead(8*i, 8)` (R70, R34). -/
def fullBlock (buf : Memory) (i : Nat) : Except Fault Word :=
  match memRead buf (8 * i) 8 with
  | .error f => .error f
  | .ok m => .ok (m.setWidth 64)

/-- The length byte in bits 63:56 (R71, R40). -/
def lengthByte (len : Nat) : Word := BitVec.ofNat 64 (len % 256) <<< 56

/-- The loop of `FinalBlock`: for `n` more tail bytes from byte `j`, put byte `j` at bits `8j+7 : 8j` of `m` (R71). -/
def orTail (buf : Memory) (base j : Nat) (m : Word) : (n : Nat) → Except Fault Word
  | 0 => .ok m
  | n + 1 =>
    match memRead buf (base + j) 1 with
    | .error f => .error f
    | .ok b => orTail buf base (j + 1) (m ||| (b.setWidth 64 <<< (8 * j))) n

/-- `FinalBlock(DATA, LEN)`: the tail bytes, zero fill, the length byte (R71, C5). -/
def finalBlock (buf : Memory) (len : Nat) : Except Fault Word :=
  orTail buf (8 * nBlocks len) 0 (lengthByte len) (len % 8)

/-- The one block of a 32-bit integer message (R72, R83). -/
def intBlock32 (num : Half) : Word := num.setWidth 64 ||| 0x0400000000000000#64

/-- The final block of a 64-bit integer message (R72, R85). -/
def lengthBlock64 : Word := 0x0800000000000000#64

/-- `LE(n, w)`: the `w` little-endian bytes of `n` (R10, R35). -/
def leBytes (n : Word) : (w : Nat) → List Byte
  | 0 => []
  | w + 1 => n.setWidth 8 :: leBytes (n >>> 8) w

/-- The unsigned value of a byte string, lowest address least significant (R34, R36). -/
def leValue (data : List Byte) : Nat :=
  match data with
  | [] => 0
  | b :: rest => b.toNat + 256 * leValue rest

/-- `KEYSTR`: the `KEY` field a 16- or 32-byte key string is placed in, string byte `b` at `KEY[8b+7 : 8b]` (R36, R54, R60).
For a 16-byte string those rules fix `KEY[127:0]` alone; that `KEY[255:128]`, which a standard-key command does not read
(R53), is zero here is the model's. DESIGN CHOICE (log entry 17), safe. -/
def keyString (bytes : List Byte) : Key := BitVec.ofNat 256 (leValue bytes)

end Sys2Proof.Machine
end

