-- ==== Sys2Proof/Machine/SipCore.lean ====
section
/-! DEFINITION. `SipCore` (R73 of spec/40_sipcore.md) on the machine's working words and message buffer, and the two shapes the six operations share: hash the buffer, hash a list of blocks. -/

namespace Sys2Proof.Machine

/-- `for i in .. : v <- Compress(v, Block(i))`: `n` full blocks from block `i`, in ascending order (R73, R38). -/
def absorbBlocks (i : Nat) (s : State) : (n : Nat) → Except Fault State
  | 0 => .ok s
  | n + 1 =>
    match fullBlock s.buf i with
    | .error f => .error f
    | .ok m => absorbBlocks (i + 1) (compressWords m s) n

/-- `SipCore(v, DATA, LEN)` from the working words of the state: the full blocks, always the final block, `Finalize`
(R73). -/
def sipCore (len : Nat) (s : State) : Except Fault (Word × State) :=
  match absorbBlocks 0 s (nBlocks len) with
  | .error f => .error f
  | .ok s1 =>
    match finalBlock s1.buf len with
    | .error f => .error f
    | .ok m => .ok (finalizeWords (compressWords m s1))

/-- Hash the message buffer from the initial words `w` and deliver what `finish` makes of the digest (R81, R91). A buffer
whose size is not `LEN` is no command's (R17, R105). -/
def hashBuffer (w : Words) (len : Nat) (finish : Word → Response) (s : State) : Host.Outcome State Fault Refusal :=
  if s.buf.length = len then
    match sipCore len (setWords w s) with
    | .error f => .fault f
    | .ok (h, s1) => .next (retire (finish h) s1)
  else .refused (.lengthMismatch len s.buf.length)

/-- `Compress` each block in order (R68). -/
def absorbList (blocks : List Word) (s : State) : State :=
  match blocks with
  | [] => s
  | m :: rest => absorbList rest (compressWords m s)

/-- Hash the blocks of an integer message from the initial words `w` and deliver what `finish` makes of the digest
(R83, R85, R87, R89). No memory is read. -/
def hashBlocks (w : Words) (blocks : List Word) (finish : Word → Response) (s : State) : Host.Outcome State Fault Refusal :=
  match finalizeWords (absorbList blocks (setWords w s)) with
  | (h, s1) => .next (retire (finish h) s1)

/-- `Ok(h)` with `h : u64` (R20). -/
def okWord (h : Word) : Response := .ok (.u64 h)

/-- `Ok(Narrow32(h))` with the instance's `NARROW32` (R20, R76). -/
def okNarrowed (h : Word) : Response := .ok (.u32 (narrow32 Config.narrow32 h))

/-- `Ok(Reduce(h, m))` (R77). -/
def okReduced (m h : Word) : Response := .ok (.u64 (reduce h m))

end Sys2Proof.Machine
end

