-- ==== Sys2Proof/Machine/Siphash.lean ====
section
/-! DEFINITION. SIPHASH (spec/41_siphash.md). -/

namespace Sys2Proof.Machine

/-- SIPHASH: standard SipHash-2-4 of the message buffer under a 128-bit key (R81). -/
def execSiphash (k0 k1 : Word) (len : Nat) (s : State) : Host.Outcome State Fault Refusal :=
  hashBuffer (init128 k0 k1) len okWord s

end Sys2Proof.Machine
end

