-- ==== Sys2Proof/Machine/SiphashInt.lean ====
section
/-! DEFINITION. SIPHASH32 and SIPHASH64 (spec/42_siphash_int.md). -/

namespace Sys2Proof.Machine

/-- SIPHASH32: the 4-byte integer's one block, narrowed to 32 bits (R83). -/
def execSiphash32 (k0 k1 : Word) (num : Half) (s : State) : Host.Outcome State Fault Refusal :=
  hashBlocks (init128 k0 k1) [intBlock32 num] okNarrowed s

/-- SIPHASH64: the integer's block and the length block (R85, C3). -/
def execSiphash64 (k0 k1 : Word) (num : Word) (s : State) : Host.Outcome State Fault Refusal :=
  hashBlocks (init128 k0 k1) [num, lengthBlock64] okWord s

end Sys2Proof.Machine
end

