-- ==== Sys2Proof/Machine/SiphashK256.lean ====
section
/-! DEFINITION. SIPHASH32K256 and SIPHASH64K256 (spec/43_siphash_k256.md). -/

namespace Sys2Proof.Machine

/-- SIPHASH32K256: as SIPHASH32 from the 256-bit key schedule (R87). -/
def execSiphash32k256 (k0 k1 k2 k3 : Word) (num : Half) (s : State) : Host.Outcome State Fault Refusal :=
  hashBlocks (k256Init k0 k1 k2 k3) [intBlock32 num] okNarrowed s

/-- SIPHASH64K256: as SIPHASH64 from the 256-bit key schedule (R89). -/
def execSiphash64k256 (k0 k1 k2 k3 : Word) (num : Word) (s : State) : Host.Outcome State Fault Refusal :=
  hashBlocks (k256Init k0 k1 k2 k3) [num, lengthBlock64] okWord s

end Sys2Proof.Machine
end

