-- ==== Sys2Proof/Machine/Sipmod.lean ====
section
/-! DEFINITION. SIPMOD (spec/44_sipmod.md). -/

namespace Sys2Proof.Machine

/-- SIPMOD: the check of `m` comes first (R92, R97); then the digest of the message buffer, reduced into `[0, m)`
(R91). -/
def execSipmod (k0 k1 : Word) (len : Nat) (m : Word) (s : State) : Host.Outcome State Fault Refusal :=
  if m = 0#64 then .next (raiseInvalidArgument s)
  else hashBuffer (init128 k0 k1) len (okReduced m) s

end Sys2Proof.Machine
end

