-- ==== Sys2Proof/Machine/Dispatch.lean ====
section
/-! DEFINITION. One arm per operation of R50 of spec/30_encoding.md. -/

namespace Sys2Proof.Machine

def exec (i : Instr) (s : State) : Host.Outcome State Fault Refusal :=
  match i with
  | .siphash k0 k1 len => Sys2Proof.Machine.execSiphash k0 k1 len s
  | .siphash32 k0 k1 num => Sys2Proof.Machine.execSiphash32 k0 k1 num s
  | .siphash64 k0 k1 num => Sys2Proof.Machine.execSiphash64 k0 k1 num s
  | .siphash32k256 k0 k1 k2 k3 num => Sys2Proof.Machine.execSiphash32k256 k0 k1 k2 k3 num s
  | .siphash64k256 k0 k1 k2 k3 num => Sys2Proof.Machine.execSiphash64k256 k0 k1 k2 k3 num s
  | .sipmod k0 k1 len m => Sys2Proof.Machine.execSipmod k0 k1 len m s

end Sys2Proof.Machine
end

