-- ==== Sys2Proof/Machine/Step.lean ====
section
/-! DEFINITION. One step of the machine: one command, from operands to response (R46 of spec/30_encoding.md, R118 of spec/70_reset_and_hazards.md). -/

namespace Sys2Proof.Machine

/-- One step. Under reset the command at the head is abandoned (R114). With no command issued the engine waits and
nothing changes (R112; log entry 2). Otherwise it takes the oldest command, decodes it and runs it; a record that is no
command is refused by name (R99, R105). -/
def step (s : State) : Host.Outcome State Fault Refusal :=
  if s.resetLine then .next (applyReset s)
  else
    match takeCommand s with
    | none => .next s
    | some (c, s1) =>
      match decode c with
      | .ok i => exec i s1
      | .error e => .refused (refusalOf e)

/-- The state in which the next step runs the command a word of spec/opcode_table.json stands for: that record stands
first among the issued commands (log entry 13). -/
def State.withFetchWord (s : State) (nbits w : Nat) : State := { s with pending := tableCmd nbits w :: s.pending }

end Sys2Proof.Machine
end

