-- ==== Sys2Proof/Machine/Flags.lean ====
section
/-! DEFINITION. The engine has no flag and no condition code (R26 of spec/10_state.md). The only status is the tag of the command's own response, on the wires of format RSP (R49 of spec/30_encoding.md, R95 of spec/60_exceptions.md). -/

namespace Sys2Proof.Machine

/-- `ERR[0]`: 0 for `Ok`, 1 for `Err(InvalidArgument)` (R49, R95). -/
def errBit (r : Response) : BitVec 1 :=
  match r with
  | .ok _ => 0#1
  | .err .invalidArgument => 1#1

/-- `RESULT[63:0]`: the value, a `u32` zero-extended; with `ERR = 1` it has no value (R49, R52 (d), U4; log entry 12). -/
def resultBits (r : Response) : Option Word :=
  match r with
  | .ok (.u64 x) => some x
  | .ok (.u32 x) => some (x.setWidth 64)
  | .err _ => none

end Sys2Proof.Machine
end

