-- ==== Sys2Proof/Safety.lean ====
section
/-! DEFINITION. The terms claims are stated in: the response of a command as a function of the command alone (R30 of spec/10_state.md), written over the list of its bytes and apart from the machine's memory and registers; what delivering a response leaves unchanged; the invariants of the message buffer and of the issued commands; a run. -/

namespace Sys2Proof.Machine

/-! The hash as a function of values -/

/-- Full block `i` of a byte string (R34 of spec/20_memory.md). -/
def blockOf (data : List Byte) (i : Nat) : Word := BitVec.ofNat 64 (leValue ((data.drop (8 * i)).take 8))

/-- The final block of a byte string: its last `LEN mod 8` bytes and, in byte 7, `LEN mod 256` (R71 of spec/40_sipcore.md). -/
def lastBlockOf (data : List Byte) : Word :=
  BitVec.ofNat 64 (leValue (data.drop (8 * (data.length / 8))) + 2 ^ 56 * (data.length % 256))

/-- The blocks of a byte string in the order they are absorbed (R70, R71, R73). -/
def blocksOf (data : List Byte) : List Word :=
  (List.range (data.length / 8)).map (blockOf data) ++ [lastBlockOf data]

/-- Absorb a list of blocks from an initial state and finalize (R68, R69, R73). -/
def digestOf (w : Words) (blocks : List Word) : Word := xorWords (finalizeRounds (blocks.foldl compress w))

/-- The digest of a byte string from an initial state: `SipCore(v, DATA, LEN)` (R73). -/
def messageDigest (w : Words) (data : List Byte) : Word := digestOf w (blocksOf data)

/-- The response of an operation whose message is `data` (R81, R83, R85, R87, R89, R91). -/
def responseOf (i : Instr) (data : List Byte) : Response :=
  match i with
  | .siphash k0 k1 _ => .ok (.u64 (messageDigest (init128 k0 k1) data))
  | .siphash32 k0 k1 num =>
    .ok (.u32 (narrow32 Config.narrow32 (messageDigest (init128 k0 k1) (leBytes (num.setWidth 64) 4))))
  | .siphash64 k0 k1 num => .ok (.u64 (messageDigest (init128 k0 k1) (leBytes num 8)))
  | .siphash32k256 k0 k1 k2 k3 num =>
    .ok (.u32 (narrow32 Config.narrow32 (messageDigest (k256Init k0 k1 k2 k3) (leBytes (num.setWidth 64) 4))))
  | .siphash64k256 k0 k1 k2 k3 num => .ok (.u64 (messageDigest (k256Init k0 k1 k2 k3) (leBytes num 8)))
  | .sipmod k0 k1 _ m =>
    if m = 0#64 then .err .invalidArgument else .ok (.u64 (reduce (messageDigest (init128 k0 k1) data) m))

/-- The response of a command record, if it is a command (R30, R55, R105). -/
def commandResponse (c : Cmd) : Option Response :=
  match decode c with
  | .ok i => some (responseOf i c.data)
  | .error _ => none

/-! What a delivery leaves unchanged -/

/-- From `s` to `t` exactly the response `r` was delivered: the host's waiting commands, the message buffer and the reset
input are as before (R13, R32, R124). The working words are not mentioned: what they hold is unspecified (R22, U7). -/
def Delivers (s : State) (r : Response) (t : State) : Prop :=
  t.responses = s.responses ++ [r] ∧ t.pending = s.pending ∧ t.buf = s.buf ∧ t.resetLine = s.resetLine

/-- What the host sees of an outcome: the responses, or the reason of the stop (R13, R22). -/
def visible (o : Host.Outcome State Fault Refusal) : Host.Outcome (List Response) Fault Refusal :=
  match o with
  | .next t => .next t.responses
  | .fault f => .fault f
  | .refused r => .refused r

/-- Two records with one `OP` that agree on every field that operation reads (R51, R53 of spec/30_encoding.md). -/
def SameOperands (c d : Cmd) : Prop :=
  c.op = d.op ∧ keyWord c.key 0 = keyWord d.key 0 ∧ keyWord c.key 1 = keyWord d.key 1 ∧
  ((c.op = 3#3 ∨ c.op = 4#3) → keyWord c.key 2 = keyWord d.key 2 ∧ keyWord c.key 3 = keyWord d.key 3) ∧
  ((c.op = 1#3 ∨ c.op = 3#3) → lowHalf c.num = lowHalf d.num) ∧
  ((c.op = 2#3 ∨ c.op = 4#3) → c.num = d.num) ∧
  ((c.op = 0#3 ∨ c.op = 5#3) → c.len = d.len ∧ c.data = d.data) ∧
  (c.op = 5#3 → c.m = d.m)

/-! The invariants -/

/-- The message buffer lists exactly the addresses 0 .. n-1, rising, for some n: it is in canonical form and has no
hole (R17, R31). -/
def State.Inv (s : State) : Prop :=
  Memory.wf s.buf = true ∧ s.buf.map Prod.fst = List.range s.buf.length

/-- The host applies no reset and every command it has issued is one (R17, R55): the states in which each issued command
gets a response (R123 of spec/70_reset_and_hazards.md). -/
def State.Ready (s : State) : Prop := s.resetLine = false ∧ ∀ c ∈ s.pending, c.wellFormed = true

/-! Runs -/

/-- `n` steps, stopping at the first fault or refusal. -/
def runSteps (s : State) : (n : Nat) → Host.Outcome State Fault Refusal
  | 0 => .next s
  | n + 1 =>
    match step s with
    | .next t => runSteps t n
    | .fault f => .fault f
    | .refused r => .refused r

end Sys2Proof.Machine
end

