-- ==== Sys2Proof/Certificates/Slice0/Obligations.lean ====
section
/-! DEFINITION. The statements for the provers, each from the numbered rules of spec/. The free values of the working words and the instance's NARROW32 are opaque: every statement holds whatever they are. -/

open Sys2Proof Sys2Proof.Machine

/-! Encoding -/

/-- Every well-formed instruction, with every operand at every value, decodes from its own record, and the record of an
operation that reads the buffer carries the message (R47, R50, R51). -/
def Obligations.DecodeInvertsEncode : Prop :=
  ∀ (i : Instr) (data : List Byte), i.wellFormed data = true →
    decode (encode i data) = .ok i ∧ (i.messageLength ≠ none → (encode i data).data = data)

/-- R50 (the specification's decision D4), with the operand slices of R47 and R52 written as numbers: what each of the six
operation codes decodes to, and that the other two spell nothing. -/
def Obligations.DecodeFollowsTheCodeMap : Prop :=
  ∀ c : Cmd,
    (c.op = 0#3 → c.len = c.data.length →
      decode c = .ok (.siphash (BitVec.ofNat 64 c.key.toNat) (BitVec.ofNat 64 (c.key.toNat / 2 ^ 64)) c.len)) ∧
    (c.op = 1#3 → decode c = .ok (.siphash32 (BitVec.ofNat 64 c.key.toNat) (BitVec.ofNat 64 (c.key.toNat / 2 ^ 64))
      (BitVec.ofNat 32 c.num.toNat))) ∧
    (c.op = 2#3 → decode c = .ok (.siphash64 (BitVec.ofNat 64 c.key.toNat) (BitVec.ofNat 64 (c.key.toNat / 2 ^ 64)) c.num)) ∧
    (c.op = 3#3 → decode c = .ok (.siphash32k256 (BitVec.ofNat 64 c.key.toNat) (BitVec.ofNat 64 (c.key.toNat / 2 ^ 64))
      (BitVec.ofNat 64 (c.key.toNat / 2 ^ 128)) (BitVec.ofNat 64 (c.key.toNat / 2 ^ 192)) (BitVec.ofNat 32 c.num.toNat))) ∧
    (c.op = 4#3 → decode c = .ok (.siphash64k256 (BitVec.ofNat 64 c.key.toNat) (BitVec.ofNat 64 (c.key.toNat / 2 ^ 64))
      (BitVec.ofNat 64 (c.key.toNat / 2 ^ 128)) (BitVec.ofNat 64 (c.key.toNat / 2 ^ 192)) c.num)) ∧
    (c.op = 5#3 → c.len = c.data.length →
      decode c = .ok (.sipmod (BitVec.ofNat 64 c.key.toNat) (BitVec.ofNat 64 (c.key.toNat / 2 ^ 64)) c.len c.m)) ∧
    ((c.op = 6#3 ∨ c.op = 7#3) → ∀ i, decode c ≠ .ok i)

/-- The decoder accepts exactly the well-formed records (R55, R105). -/
def Obligations.DecodeAcceptsExactlyTheCommands : Prop :=
  ∀ c : Cmd, (∃ i, decode c = .ok i) ↔ c.wellFormed = true

/-- R55 (decision D5): a record with a reserved code is refused, and is never answered. -/
def Obligations.ReservedCodesAreRefused : Prop :=
  ∀ (s : State) (c : Cmd) (rest : List Cmd), s.resetLine = false → s.pending = c :: rest →
    (c.op = 6#3 ∨ c.op = 7#3) →
    decode c = .error (.reservedOp c.op) ∧ step s = .refused (.reservedOp c.op)

/-- R105 (b), R17 (decision D12; that the refusal is the decoder's, and the order of the checks in `exec`, are the model's,
log entry 11): a record of SIPHASH or SIPMOD whose `LEN` is not the size of its `DATA` is refused; so is the operation on a
buffer of another size (SIPMOD once its check of `M` has passed). -/
def Obligations.LengthMismatchIsRefused : Prop :=
  (∀ (s : State) (c : Cmd) (rest : List Cmd), s.resetLine = false → s.pending = c :: rest →
    (c.op = 0#3 ∨ c.op = 5#3) → c.len ≠ c.data.length →
    step s = .refused (.lengthMismatch c.len c.data.length)) ∧
  (∀ (s : State) (k0 k1 : Word) (len : Nat), s.buf.length ≠ len →
    exec (.siphash k0 k1 len) s = .refused (.lengthMismatch len s.buf.length)) ∧
  (∀ (s : State) (k0 k1 m : Word) (len : Nat), m ≠ 0#64 → s.buf.length ≠ len →
    exec (.sipmod k0 k1 len m) s = .refused (.lengthMismatch len s.buf.length))

/-- R53 (decision D6): fields the operation does not read affect neither the instruction decoded nor what the host sees. -/
def Obligations.UnreadFieldsAreIgnored : Prop :=
  ∀ (s : State) (c d : Cmd) (rest : List Cmd), SameOperands c d →
    decode c = decode d ∧
    visible (step { s with pending := c :: rest }) = visible (step { s with pending := d :: rest })

/-- Four records of the worked encodings (R47, R50, R55) and the instructions they spell. -/
def Obligations.WrittenOutRecordsDecode : Prop :=
  decode ⟨0#3, 0xffffffffffffffffffffffffffffffff0f0e0d0c0b0a09080706050403020100#256, 0x1234#64, 0#64, 1, [0#8]⟩ =
    .ok (.siphash 0x0706050403020100#64 0x0f0e0d0c0b0a0908#64 1) ∧
  decode ⟨1#3, 0x0f0e0d0c0b0a09080706050403020100#256, 0xffffffff03020100#64, 0#64, 0, []⟩ =
    .ok (.siphash32 0x0706050403020100#64 0x0f0e0d0c0b0a0908#64 0x03020100#32) ∧
  decode ⟨4#3, 0x1f1e1d1c1b1a191817161514131211100f0e0d0c0b0a09080706050403020100#256, 0x0706050403020100#64, 0#64, 0, []⟩ =
    .ok (.siphash64k256 0x0706050403020100#64 0x0f0e0d0c0b0a0908#64 0x1716151413121110#64 0x1f1e1d1c1b1a1918#64
      0x0706050403020100#64) ∧
  decode ⟨6#3, 0#256, 0#64, 0#64, 0, []⟩ = .error (.reservedOp 6#3)

/-- R36, R54 (decision D11): where a 16- or 32-byte key string goes: byte `b` at `KEY[8b+7 : 8b]`, so that word `k_j` is the
little-endian value of bytes `8j .. 8j+7`; and the reference key, in the 128 bits R54 fixes. What no rule fixes, that a 16-byte
string leaves `KEY[255:128]` zero, is the model's choice (DESIGN CHOICE, log entry 17), stated as a clause of its own. -/
def Obligations.KeyStringsAreLittleEndian : Prop :=
  ∀ bytes : List Byte, (bytes.length = 16 ∨ bytes.length = 32) →
    (∀ b, b < bytes.length → bytes[b]? = some ((keyString bytes).extractLsb' (8 * b) 8)) ∧
    (∀ j, 8 * j + 8 ≤ bytes.length → (keyWord (keyString bytes) j).toNat = leValue ((bytes.drop (8 * j)).take 8)) ∧
    (keyString ((List.range 16).map (BitVec.ofNat 8))).extractLsb' 0 128 = 0x0f0e0d0c0b0a09080706050403020100#128 ∧
    (bytes.length = 16 → (keyString bytes).extractLsb' 128 128 = 0#128)

/-! The step -/

/-- With reset not applied, a step takes the oldest command, lays its `DATA` out as the address space, and is `exec` of
the instruction its record decodes to; a record that decodes is well formed. -/
def Obligations.StepRunsTheDecodedInstruction : Prop :=
  ∀ (s : State) (c : Cmd) (rest : List Cmd) (i : Instr), s.resetLine = false → s.pending = c :: rest → decode c = .ok i →
    i.wellFormed c.data = true ∧ step s = exec i { s with pending := rest, buf := bufferOf c.data }

/-- With no command issued and reset not applied the engine waits (log entry 2). -/
def Obligations.EngineWaitsWithNoCommand : Prop :=
  ∀ s : State, s.resetLine = false → s.pending = [] → step s = .next s

/-- R114, R112 (log entry 5): under reset the command at the head is abandoned: no response, neither Ok nor Err; the
commands after it and the responses already delivered stay the host's; and whatever command the engine then takes gets
the response it gets at any other time. -/
def Obligations.ResetAbandonsTheCommand : Prop :=
  ∀ s : State, s.resetLine = true →
    ∃ t, step s = .next t ∧ t.responses = s.responses ∧ t.pending = s.pending.tail ∧ t.buf = [] ∧ t.resetLine = false ∧
      ∀ (c : Cmd) (rest : List Cmd), t.pending = c :: rest → c.wellFormed = true →
        ∃ u r, step t = .next u ∧ commandResponse c = some r ∧ u.responses = s.responses ++ [r]

/-- R112 (how the model holds issued commands and responses is log entry 1): no response is pending at reset, and any command issued then gets the response it gets at any other time. -/
def Obligations.FirstCommandAfterResetIsLikeAnyOther : Prop :=
  State.reset.responses = [] ∧
  ∀ c : Cmd, c.wellFormed = true →
    ∃ t r, step (issue c State.reset) = .next t ∧ commandResponse c = some r ∧ t.responses = [r]

/-- No step from any state faults: no rule reads outside the buffer (R33, R75). -/
def Obligations.NoStepFaults : Prop :=
  ∀ (s : State) (f : Fault), step s ≠ .fault f

/-- The invariant of the buffer (log entry 4 says how the model holds it). The message buffer keeps its canonical form and has no hole: every step keeps it (R17, R31). -/
def Obligations.StepKeepsTheBufferCanonical : Prop :=
  ∀ s t : State, s.Inv → step s = .next t → t.Inv

/-- The buffer at reset is canonical. -/
def Obligations.ResetBufferIsCanonical : Prop := State.reset.Inv

/-! Memory -/

/-- `MemRead(addr, n)` inside the buffer is the sum of its bytes, lowest address least significant (R33, R34). R33 defines no
read that leaves the buffer: that such a read faults, at an address of the read that does not exist, is the model's choice
(DESIGN CHOICE, log entry 4). -/
def Obligations.MemReadIsLittleEndian : Prop :=
  ∀ (data : List Byte) (addr n : Nat),
    (addr + n ≤ data.length → ∃ x, memRead (bufferOf data) addr n = .ok x ∧
      x.toNat = ((List.range n).map fun j => (data.getD (addr + j) 0#8).toNat * 2 ^ (8 * j)).sum) ∧
    (0 < n → data.length < addr + n → ∃ a, addr ≤ a ∧ data.length ≤ a ∧ a < addr + n ∧
      memRead (bufferOf data) addr n = .error (.outOfBuffer a))

/-- R34: full block `i` has the byte at address `8i` lowest and the byte at `8i+7` highest. -/
def Obligations.FullBlocksAreLittleEndian : Prop :=
  ∀ (data : List Byte) (i : Nat) (b0 b1 b2 b3 b4 b5 b6 b7 : Byte),
    (data.drop (8 * i)).take 8 = [b0, b1, b2, b3, b4, b5, b6, b7] →
    fullBlock (bufferOf data) i = .ok
      (b0.setWidth 64 ||| b1.setWidth 64 <<< 8 ||| b2.setWidth 64 <<< 16 ||| b3.setWidth 64 <<< 24 |||
       b4.setWidth 64 <<< 32 ||| b5.setWidth 64 <<< 40 ||| b6.setWidth 64 <<< 48 ||| b7.setWidth 64 <<< 56)

/-- R71 (decision D16): the final block exists for every message; byte `j` is tail byte `j` for `j < LEN mod 8`, zero from there to byte 6, and
byte 7 is `LEN mod 256`. -/
def Obligations.FinalBlockLayout : Prop :=
  ∀ data : List Byte, ∃ m, finalBlock (bufferOf data) data.length = .ok m ∧
    ∀ j, j < 8 → m.extractLsb' (8 * j) 8 =
      if j < data.length % 8 then data.getD (8 * (data.length / 8) + j) 0#8
      else if j < 7 then 0#8
      else BitVec.ofNat 8 (data.length % 256)

/-- R72, R35: the bytes of `LE(num, 8)` and `LE(num, 4)`, and the block sequences they give. -/
def Obligations.IntegerBlockSequences : Prop :=
  (∀ num : Word, (∀ j, j < 8 → (leBytes num 8)[j]? = some (num.extractLsb' (8 * j) 8)) ∧ nBlocks 8 = 1 ∧ fullBlock (bufferOf (leBytes num 8)) 0 = .ok num ∧
    finalBlock (bufferOf (leBytes num 8)) 8 = .ok 0x0800000000000000#64) ∧
  (∀ num : Half, (∀ j, j < 4 → (leBytes (num.setWidth 64) 4)[j]? = some (num.extractLsb' (8 * j) 8)) ∧ nBlocks 4 = 0 ∧
    finalBlock (bufferOf (leBytes (num.setWidth 64) 4)) 4 = .ok (num.setWidth 64 ||| 0x0400000000000000#64))

/-- R32: no instruction writes a byte of memory: every address reads after as it read before. -/
def Obligations.NoInstructionWritesMemory : Prop :=
  ∀ (i : Instr) (s t : State), exec i s = .next t → ∀ a, readByte t.buf a = readByte s.buf a

/-! The datapath -/

/-- R64 (b): SipRound is a bijection on states. -/
def Obligations.SipRoundIsABijection : Prop := Function.Bijective sipRound

/-- R88, with the key schedule of decision D2: two 256-bit keys that differ in any word give different states after every `Compress`. -/
def Obligations.EveryKeyWordReachesTheState : Prop :=
  ∀ (k0 k1 k2 k3 l0 l1 l2 l3 : Word) (blocks : List Word), (k0, k1, k2, k3) ≠ (l0, l1, l2, l3) →
    blocks.foldl compress (k256Init k0 k1 k2 k3) ≠ blocks.foldl compress (k256Init l0 l1 l2 l3)

/-- R79: `rotl64(a, n)` moves bit `j` to bit `(j + n) mod 64`, for every `n` the notation allows. -/
def Obligations.RotationMovesEveryBit : Prop :=
  ∀ (a : Word) (n j : Nat), 1 ≤ n → n ≤ 63 → j < 64 → (rotl64 a n).getLsbD ((j + n) % 64) = a.getLsbD j

/-- R76: the two admissible narrowings, as numbers, and no third. -/
def Obligations.NarrowingIsOneOfTwo : Prop :=
  (∀ h : Word, (narrow32 .truncLow h).toNat = h.toNat % 2 ^ 32 ∧
    (narrow32 .xorFold h).toNat = (h.toNat / 2 ^ 32) ^^^ (h.toNat % 2 ^ 32)) ∧
  (∀ mode : NarrowMode, mode = .truncLow ∨ mode = .xorFold)

/-- R77 (decision D9): `Reduce` is the high half of the exact product; its bound, its corner cases, its monotonicity, and that it is not
the remainder. -/
def Obligations.ReduceIsTheHighHalf : Prop :=
  (∀ h m : Word, (reduce h m).toNat = h.toNat * m.toNat / 2 ^ 64) ∧
  (∀ h m : Word, m ≠ 0#64 → (reduce h m).toNat < m.toNat) ∧
  (∀ h : Word, reduce h 1#64 = 0#64) ∧
  (∀ h : Word, reduce h 2#64 = if h.getLsbD 63 then 1#64 else 0#64) ∧
  (∀ (h : Word) (k : Nat), 1 ≤ k → k ≤ 63 → reduce h (BitVec.ofNat 64 (2 ^ k)) = h >>> (64 - k)) ∧
  (∀ h : Word, reduce h 0xffffffffffffffff#64 = if h = 0#64 then 0#64 else h - 1#64) ∧
  (∀ m : Word, reduce 0#64 m = 0#64) ∧
  (∀ g h m : Word, g.toNat ≤ h.toNat → (reduce g m).toNat ≤ (reduce h m).toNat) ∧
  (reduce 0x726fdb47dd0e0e31#64 10#64 = 4#64 ∧ 0x726fdb47dd0e0e31#64 % 10#64 = 3#64)

/-! The operations -/

/-- R81: SIPHASH completes on every message in the buffer, and its response is the digest of the message. -/
def Obligations.SiphashRespondsWithTheDigest : Prop :=
  ∀ (s : State) (k0 k1 : Word) (data : List Byte), s.buf = bufferOf data →
    ∃ t, exec (.siphash k0 k1 data.length) s = .next t ∧
      Delivers s (.ok (.u64 (messageDigest (init128 k0 k1) data))) t

/-- R83: SIPHASH32 completes from every state; its response is the narrowed digest of one block, which is the digest of the
integer's four little-endian bytes. -/
def Obligations.Siphash32RespondsWithTheNarrowedDigest : Prop :=
  ∀ (s : State) (k0 k1 : Word) (num : Half),
    ∃ t h, exec (.siphash32 k0 k1 num) s = .next t ∧ Delivers s (.ok (.u32 (narrow32 Config.narrow32 h))) t ∧
      h = xorWords (finalizeRounds (compress (init128 k0 k1) (num.setWidth 64 ||| 0x0400000000000000#64))) ∧
      h = messageDigest (init128 k0 k1) (leBytes (num.setWidth 64) 4)

/-- R85: SIPHASH64 completes from every state; its response is the digest of two blocks, which is the digest of the integer's
eight little-endian bytes. -/
def Obligations.Siphash64RespondsWithTheDigest : Prop :=
  ∀ (s : State) (k0 k1 num : Word),
    ∃ t h, exec (.siphash64 k0 k1 num) s = .next t ∧ Delivers s (.ok (.u64 h)) t ∧
      h = xorWords (finalizeRounds (compress (compress (init128 k0 k1) num) 0x0800000000000000#64)) ∧
      h = messageDigest (init128 k0 k1) (leBytes num 8)

/-- R87 (with the key schedule of decision D2, which no vector confirms, log entry 8): SIPHASH32K256 completes from every
state, as SIPHASH32 from the 256-bit key schedule. -/
def Obligations.Siphash32K256RespondsWithTheNarrowedDigest : Prop :=
  ∀ (s : State) (k0 k1 k2 k3 : Word) (num : Half),
    ∃ t h, exec (.siphash32k256 k0 k1 k2 k3 num) s = .next t ∧ Delivers s (.ok (.u32 (narrow32 Config.narrow32 h))) t ∧
      h = xorWords (finalizeRounds (compress (k256Init k0 k1 k2 k3) (num.setWidth 64 ||| 0x0400000000000000#64))) ∧
      h = messageDigest (k256Init k0 k1 k2 k3) (leBytes (num.setWidth 64) 4)

/-- R89 (with the key schedule of decision D2, which no vector confirms, log entry 8): SIPHASH64K256 completes from every
state, as SIPHASH64 from the 256-bit key schedule. -/
def Obligations.Siphash64K256RespondsWithTheDigest : Prop :=
  ∀ (s : State) (k0 k1 k2 k3 num : Word),
    ∃ t h, exec (.siphash64k256 k0 k1 k2 k3 num) s = .next t ∧ Delivers s (.ok (.u64 h)) t ∧
      h = xorWords (finalizeRounds (compress (compress (k256Init k0 k1 k2 k3) num) 0x0800000000000000#64)) ∧
      h = messageDigest (k256Init k0 k1 k2 k3) (leBytes num 8)

/-- R91 (with the reduction of decision D9): SIPMOD with a non-zero modulus completes on every message in the buffer, and its
response is the reduced digest, which is below the modulus; with a zero modulus its response is the error. -/
def Obligations.SipmodRespondsBelowTheModulus : Prop :=
  (∀ (s : State) (k0 k1 m : Word) (data : List Byte), s.buf = bufferOf data → m ≠ 0#64 →
    ∃ t r, exec (.sipmod k0 k1 data.length m) s = .next t ∧ Delivers s (.ok (.u64 r)) t ∧
      r = reduce (messageDigest (init128 k0 k1) data) m ∧ r.toNat < m.toNat) ∧
  (∀ (s : State) (k0 k1 : Word) (len : Nat),
    ∃ t, exec (.sipmod k0 k1 len 0#64) s = .next t ∧ Delivers s (.err .invalidArgument) t)

/-- R92, R96, R97: with a zero modulus SIPMOD answers the error at once, whatever the key, the length and the buffer are,
and nothing else of the state changes. -/
def Obligations.SipmodWithZeroModulusRaises : Prop :=
  ∀ (s : State) (k0 k1 : Word) (len : Nat),
    exec (.sipmod k0 k1 len 0#64) s = .next { s with responses := s.responses ++ [.err .invalidArgument] }

/-- R94: among all instructions, exactly SIPMOD with a zero modulus answers `InvalidArgument`. -/
def Obligations.OnlySipmodWithZeroModulusFails : Prop :=
  ∀ (i : Instr) (s t : State), exec i s = .next t →
    (t.responses = s.responses ++ [.err .invalidArgument] ↔ ∃ k0 k1 len, i = .sipmod k0 k1 len 0#64)

/-- The frame of all six operations: one response is added, and the host's waiting commands, its earlier responses, every
byte of memory and the reset input are unchanged; with the error the working words are unchanged too. -/
def Obligations.OperationsChangeOnlyResponsesAndWorkingWords : Prop :=
  ∀ (i : Instr) (s t : State), exec i s = .next t →
    ∃ r, Delivers s r t ∧ (∀ a, readByte t.buf a = readByte s.buf a) ∧
      (r = .err .invalidArgument → t.v = s.v ∧ t.draws = s.draws)

/-- R84, R86: the integer operations against SIPHASH of the integer's little-endian bytes; and the sample that shows that no
such law holds between the two widths, under either narrowing. -/
def Obligations.IntegerOperationsAgreeWithSiphash : Prop :=
  (∀ (s : State) (k0 k1 num : Word), s.buf = bufferOf (leBytes num 8) →
    ∃ t u h, exec (.siphash64 k0 k1 num) s = .next t ∧ exec (.siphash k0 k1 8) s = .next u ∧
      t.responses = s.responses ++ [.ok (.u64 h)] ∧ u.responses = s.responses ++ [.ok (.u64 h)]) ∧
  (∀ (s : State) (k0 k1 : Word) (num : Half), s.buf = bufferOf (leBytes (num.setWidth 64) 4) →
    ∃ t u h, exec (.siphash32 k0 k1 num) s = .next t ∧ exec (.siphash k0 k1 4) s = .next u ∧
      t.responses = s.responses ++ [.ok (.u32 (narrow32 Config.narrow32 h))] ∧
      u.responses = s.responses ++ [.ok (.u64 h)]) ∧
  (∃ (k0 k1 : Word) (num : Half), ∀ mode : NarrowMode,
    narrow32 mode (messageDigest (init128 k0 k1) (leBytes (num.setWidth 64) 4)) ≠
      narrow32 mode (messageDigest (init128 k0 k1) (leBytes (num.setWidth 64) 8)))

/-- R66, R90 (a consequence of decision D2): with the key words repeated the k256 operations are the standard ones, outcome for outcome. -/
def Obligations.RepeatedKeyGivesTheStandardOperations : Prop :=
  (∀ k0 k1 : Word, k256Init k0 k1 k0 k1 = init128 k0 k1) ∧
  (∀ (s : State) (k0 k1 num : Word), exec (.siphash64k256 k0 k1 k0 k1 num) s = exec (.siphash64 k0 k1 num) s) ∧
  (∀ (s : State) (k0 k1 : Word) (num : Half), exec (.siphash32k256 k0 k1 k0 k1 num) s = exec (.siphash32 k0 k1 num) s)

/-- R93 (b): for a non-zero modulus SIPMOD answers `Reduce` of what SIPHASH answers on the same buffer. -/
def Obligations.SipmodReducesSiphash : Prop :=
  ∀ (s : State) (k0 k1 m : Word) (len : Nat) (t : State), m ≠ 0#64 → exec (.siphash k0 k1 len) s = .next t →
    ∃ u h, exec (.sipmod k0 k1 len m) s = .next u ∧ t.responses = s.responses ++ [.ok (.u64 h)] ∧
      u.responses = s.responses ++ [.ok (.u64 (reduce h m))]

/-- R49, R95: the wire form of a response: `ERR` tells an error from a value; a `u64` stands whole in `RESULT`, a `u32` is
zero-extended there, and an error leaves `RESULT` without a value. -/
def Obligations.ResponseWireFormat : Prop :=
  (∀ x : Word, errBit (.ok (.u64 x)) = 0#1 ∧ resultBits (.ok (.u64 x)) = some x) ∧
  (∀ x : Half, errBit (.ok (.u32 x)) = 0#1 ∧
    ∃ w, resultBits (.ok (.u32 x)) = some w ∧ w.extractLsb' 0 32 = x ∧ w.extractLsb' 32 32 = 0#32) ∧
  (errBit (.err .invalidArgument) = 1#1 ∧ resultBits (.err .invalidArgument) = none)

/-! The whole machine -/

/-- R22, R29: no operation's outcome depends on what the working words held before it, nor on the free values drawn. -/
def Obligations.WorkingWordsAreNeverReadBeforeWritten : Prop :=
  ∀ (i : Instr) (s : State) (w : Words) (d : Nat),
    visible (exec i { s with v := w, draws := d }) = visible (exec i s)

/-- R31: the four integer operations do not depend on the message buffer. -/
def Obligations.IntegerOperationsTouchNoMemory : Prop :=
  ∀ (i : Instr) (s : State) (b : Memory), i.messageLength = none →
    ∃ t u, exec i s = .next t ∧ exec i { s with buf := b } = .next u ∧ t.responses = u.responses

/-- The answer to a command is a function of the command alone: on two machines in any two states, with anything else waiting
or delivered, the same command gets the same response (R30). The clause on records that are no command is not R30's: that
they are refused, with the same reason, follows R55 and R105 (decisions D5, D12) as the model reads them (log entries 10,
DEDUCED, and 11, DESIGN CHOICE). -/
def Obligations.AnswerDependsOnTheCommandAlone : Prop :=
  ∀ (s₁ s₂ : State) (c : Cmd) (rest₁ rest₂ : List Cmd), s₁.resetLine = false → s₂.resetLine = false →
    s₁.pending = c :: rest₁ → s₂.pending = c :: rest₂ →
    (c.wellFormed = true → ∃ t₁ t₂ r, step s₁ = .next t₁ ∧ step s₂ = .next t₂ ∧
      t₁.responses = s₁.responses ++ [r] ∧ t₂.responses = s₂.responses ++ [r]) ∧
    (c.wellFormed = false → ∃ e, step s₁ = .refused e ∧ step s₂ = .refused e)

/-- R124, R123: from any state with reset not applied, a list of well-formed commands runs to its end in one step each, and the
outcome is the list of the commands' own responses, in order. -/
def Obligations.RunDeliversEveryResponse : Prop :=
  ∀ s : State, s.resetLine = false → (∀ c ∈ s.pending, c.wellFormed = true) →
    ∃ t rs, runSteps s s.pending.length = .next t ∧ t.pending = [] ∧
      s.pending.map commandResponse = rs.map some ∧ t.responses = s.responses ++ rs

/-- R119: the response of a command does not depend on the commands issued before it or after it. -/
def Obligations.OrderOfCommandsDoesNotMatter : Prop :=
  ∀ (s₁ s₂ : State) (c : Cmd) (pre₁ post₁ pre₂ post₂ : List Cmd),
    s₁.resetLine = false → s₂.resetLine = false →
    s₁.pending = pre₁ ++ c :: post₁ → s₂.pending = pre₂ ++ c :: post₂ →
    (∀ d ∈ s₁.pending, d.wellFormed = true) → (∀ d ∈ s₂.pending, d.wellFormed = true) →
    ∃ t₁ t₂ r, runSteps s₁ s₁.pending.length = .next t₁ ∧ runSteps s₂ s₂.pending.length = .next t₂ ∧
      t₁.responses[s₁.responses.length + pre₁.length]? = some r ∧
      t₂.responses[s₂.responses.length + pre₂.length]? = some r

/-- R102: the error is not sticky: after it the machine runs the next command exactly as if the failing command had never
been issued, its error standing among the delivered responses. -/
def Obligations.ErrorIsNotSticky : Prop :=
  ∀ (s : State) (c d : Cmd) (rest : List Cmd) (k0 k1 : Word) (len : Nat),
    s.resetLine = false → s.pending = c :: d :: rest → decode c = .ok (.sipmod k0 k1 len 0#64) →
    ∃ t, step s = .next t ∧
      step t = step { s with pending := d :: rest, responses := s.responses ++ [.err .invalidArgument] }

/-- R123: from a state with no reset in which every issued command is one, a step always answers a next state, and that state
is such a state again: no later step of the run stops. -/
def Obligations.StepKeepsTheCommandsRunnable : Prop :=
  ∀ s : State, s.Ready → (∃ t, step s = .next t) ∧ ∀ t, step s = .next t → t.Ready

/-- The reset state has no reset applied and no command issued that is none (its empty queue and its reset input are log
entries 1 and 5). -/
def Obligations.ResetIsReady : Prop := State.reset.Ready
end

