-- ==== Sys2Proof/Laws/Decode.lean ====
section
/-! SUPPORT. The slices of the key and integer fields, and that what decodes is well formed. -/

namespace Sys2Proof

@[simp] theorem keyWord_packKey_zero (k0 k1 k2 k3 : Word) : keyWord (packKey k0 k1 k2 k3) 0 = k0 := by
  refine BitVec.eq_of_getLsbD_eq fun i hi => ?_
  simp [keyWord, packKey, hi, show i < 128 by omega, show i < 192 by omega, show i < 256 by omega]

@[simp] theorem keyWord_packKey_one (k0 k1 k2 k3 : Word) : keyWord (packKey k0 k1 k2 k3) 1 = k1 := by
  refine BitVec.eq_of_getLsbD_eq fun i hi => ?_
  simp [keyWord, packKey, hi, show 64 + i < 128 by omega, show 64 + i < 192 by omega, show 64 + i < 256 by omega]

@[simp] theorem keyWord_packKey_two (k0 k1 k2 k3 : Word) : keyWord (packKey k0 k1 k2 k3) 2 = k2 := by
  refine BitVec.eq_of_getLsbD_eq fun i hi => ?_
  simp [keyWord, packKey, hi, show ¬ 128 + i < 64 by omega, show 128 + i - 64 = 64 + i by omega,
    show 128 + i < 192 by omega, show 128 + i < 256 by omega, BitVec.getLsbD_of_ge k0 (128 + i) (by omega)]

@[simp] theorem keyWord_packKey_three (k0 k1 k2 k3 : Word) : keyWord (packKey k0 k1 k2 k3) 3 = k3 := by
  refine BitVec.eq_of_getLsbD_eq fun i hi => ?_
  simp [keyWord, packKey, hi, show ¬ 192 + i < 64 by omega, show ¬ 192 + i < 128 by omega,
    show 192 + i - 64 = 128 + i by omega, show 192 + i - 128 = 64 + i by omega, show 192 + i < 256 by omega,
    BitVec.getLsbD_of_ge k0 (192 + i) (by omega), BitVec.getLsbD_of_ge k1 (128 + i) (by omega)]

@[simp] theorem lowHalf_setWidth (n : Half) : lowHalf (n.setWidth 64) = n := by
  refine BitVec.eq_of_getLsbD_eq fun i hi => ?_
  simp [lowHalf, hi]
  omega

/-- A decoded instruction is well formed with the bytes on the `DATA` port. -/
theorem decode_wellFormed (c : Cmd) (i : Instr) (h : decode c = .ok i) : i.wellFormed c.data = true := by
  unfold decode decodeMessage at h
  repeat' split at h
  all_goals cases h
  all_goals simp_all [Instr.wellFormed, Instr.messageLength]

end Sys2Proof
end

