-- ==== Sys2Proof/Laws/Memory.lean ====
section
/-! SUPPORT. The message buffer: its canonical form, what a read of it answers, and little-endian values. -/

namespace Sys2Proof.Machine

/-! The cells of a byte list -/

@[simp] theorem bytesFrom_length (base : Nat) (data : List Byte) : (bytesFrom base data).length = data.length := by
  induction data generalizing base with
  | nil => rfl
  | cons x rest ih => simp [bytesFrom, ih]

@[simp] theorem bufferOf_length (data : List Byte) : (bufferOf data).length = data.length := bytesFrom_length 0 data

theorem bytesFrom_addresses (base : Nat) (data : List Byte) :
    (bytesFrom base data).map Prod.fst = List.range' base data.length := by
  induction data generalizing base with
  | nil => rfl
  | cons x rest ih => simp [bytesFrom, ih, List.range'_succ]

theorem bufferOf_addresses (data : List Byte) : (bufferOf data).map Prod.fst = List.range data.length := by
  rw [List.range_eq_range']
  exact bytesFrom_addresses 0 data

theorem bytesFrom_wf (base : Nat) (data : List Byte) : Memory.wf (bytesFrom base data) = true := by
  induction data generalizing base with
  | nil => rfl
  | cons x rest ih =>
    cases rest with
    | nil => rfl
    | cons y tail => simpa [bytesFrom, Memory.wf] using ih (base + 1)

/-- The one operation that makes a memory makes a canonical one. -/
theorem bufferOf_wf (data : List Byte) : Memory.wf (bufferOf data) = true := bytesFrom_wf 0 data

/-- A read of one byte: the byte at that place of the list, and nothing outside it. -/
theorem readByte_bytesFrom (base : Nat) (data : List Byte) (a : Nat) :
    readByte (bytesFrom base data) (base + a) = data[a]? := by
  induction data generalizing base a with
  | nil => rfl
  | cons x rest ih =>
    cases a with
    | zero => simp [bytesFrom, readByte]
    | succ a =>
      have h : base ≠ base + (a + 1) := by omega
      have e : base + (a + 1) = base + 1 + a := by omega
      simp only [bytesFrom, readByte, if_neg h, List.getElem?_cons_succ]
      rw [e, ih]

theorem readByte_bufferOf (data : List Byte) (a : Nat) : readByte (bufferOf data) a = data[a]? := by
  have h := readByte_bytesFrom 0 data a
  rwa [Nat.zero_add] at h

/-! MemRead -/

/-- A read inside the buffer answers the little-endian value of its bytes. -/
theorem memRead_bufferOf (data : List Byte) (addr n : Nat) (h : addr + n ≤ data.length) :
    ∃ x, memRead (bufferOf data) addr n = .ok x ∧ x.toNat = leValue ((data.drop addr).take n) := by
  induction n generalizing addr with
  | zero => exact ⟨0#0, rfl, by simp [leValue]⟩
  | succ n ih =>
    have hlt : addr < data.length := by omega
    obtain ⟨rest, hr, hv⟩ := ih (addr + 1) (by omega)
    refine ⟨rest ++ data[addr], ?_, ?_⟩
    · simp [memRead, readByte_bufferOf, List.getElem?_eq_getElem hlt, hr]
    · rw [List.drop_eq_getElem_cons hlt, List.take_succ_cons, leValue, ← hv]
      rw [BitVec.toNat_append, ← Nat.shiftLeft_add_eq_or_of_lt (BitVec.isLt _), Nat.shiftLeft_eq]
      omega

theorem leValue_lt (data : List Byte) : leValue data < 256 ^ data.length := by
  induction data with
  | nil => simp [leValue]
  | cons b rest ih =>
    have hb : b.toNat < 256 := b.isLt
    simp only [leValue, List.length_cons, pow_succ]
    omega

theorem leValue_drop_succ (data : List Byte) (k : Nat) (h : k < data.length) :
   leValue (data.drop k) = data[k].toNat + 256 * leValue (data.drop (k+1)) := by
  rw [List.drop_eq_getElem_cons h, leValue]

theorem memRead_one (data : List Byte) (a : Nat) (h : a < data.length) :
    memRead (bufferOf data) a 1 = .ok (data[a].setWidth 8) := by
  simp only [memRead, readByte_bufferOf, List.getElem?_eq_getElem h]
  congr 1
  apply BitVec.eq_of_toNat_eq
  rw [BitVec.toNat_setWidth, Nat.mod_eq_of_lt data[a].isLt]
  exact (BitVec.toNat_append 0#0 data[a]).trans (by simp)

/-- The little-endian bytes of a number have its value. -/
theorem leValue_leBytes (n : Word) (w : Nat) : leValue (leBytes n w) = n.toNat % 256 ^ w := by
  induction w generalizing n with
  | zero => simp [leBytes, leValue, Nat.mod_one]
  | succ w ih =>
    have e : 256 ^ (w + 1) = 2 ^ 8 * 256 ^ w := pow_succ' 256 w
    rw [leBytes, leValue, ih, BitVec.toNat_ushiftRight, Nat.shiftRight_eq_div_pow, BitVec.toNat_setWidth, e, Nat.mod_mul]
    norm_num

@[simp] theorem leBytes_length (n : Word) (w : Nat) : (leBytes n w).length = w := by
  induction w generalizing n with
  | zero => rfl
  | succ w ih => simp [leBytes, ih]

end Sys2Proof.Machine
end

