-- ==== Sys2Proof/Laws/State.lean ====
section
/-! SUPPORT. One lemma per field for each update of the state, so that no proof unfolds a record update. -/

namespace Sys2Proof.Machine

/-! setWords -/

@[simp] theorem setWords_pending (w : Words) (s : State) : (setWords w s).pending = s.pending := rfl
@[simp] theorem setWords_buf (w : Words) (s : State) : (setWords w s).buf = s.buf := rfl
@[simp] theorem setWords_v (w : Words) (s : State) : (setWords w s).v = w := rfl
@[simp] theorem setWords_responses (w : Words) (s : State) : (setWords w s).responses = s.responses := rfl
@[simp] theorem setWords_resetLine (w : Words) (s : State) : (setWords w s).resetLine = s.resetLine := rfl
@[simp] theorem setWords_draws (w : Words) (s : State) : (setWords w s).draws = s.draws := rfl
@[simp] theorem setWords_setWords (w x : Words) (s : State) : setWords w (setWords x s) = setWords w s := rfl

/-! compressWords -/

theorem compressWords_eq (m : Word) (s : State) : compressWords m s = setWords (compress s.v m) s := rfl
@[simp] theorem compressWords_setWords (m : Word) (w : Words) (s : State) :
    compressWords m (setWords w s) = setWords (compress w m) s := rfl

/-! finalizeWords -/

@[simp] theorem finalizeWords_setWords (w : Words) (s : State) :
    finalizeWords (setWords w s) = (xorWords (finalizeRounds w), setWords (finalizeRounds w) s) := rfl

/-! scrambleWords -/

@[simp] theorem scrambleWords_pending (s : State) : (scrambleWords s).pending = s.pending := rfl
@[simp] theorem scrambleWords_buf (s : State) : (scrambleWords s).buf = s.buf := rfl
@[simp] theorem scrambleWords_responses (s : State) : (scrambleWords s).responses = s.responses := rfl
@[simp] theorem scrambleWords_resetLine (s : State) : (scrambleWords s).resetLine = s.resetLine := rfl
@[simp] theorem scrambleWords_draws (s : State) : (scrambleWords s).draws = s.draws + 4 := rfl
@[simp] theorem scrambleWords_setWords (w : Words) (s : State) : scrambleWords (setWords w s) = scrambleWords s := rfl

/-! respond -/

@[simp] theorem respond_pending (r : Response) (s : State) : (respond r s).pending = s.pending := rfl
@[simp] theorem respond_buf (r : Response) (s : State) : (respond r s).buf = s.buf := rfl
@[simp] theorem respond_v (r : Response) (s : State) : (respond r s).v = s.v := rfl
@[simp] theorem respond_responses (r : Response) (s : State) : (respond r s).responses = s.responses ++ [r] := rfl
@[simp] theorem respond_resetLine (r : Response) (s : State) : (respond r s).resetLine = s.resetLine := rfl
@[simp] theorem respond_draws (r : Response) (s : State) : (respond r s).draws = s.draws := rfl

/-! retire -/

@[simp] theorem retire_pending (r : Response) (s : State) : (retire r s).pending = s.pending := rfl
@[simp] theorem retire_buf (r : Response) (s : State) : (retire r s).buf = s.buf := rfl
@[simp] theorem retire_responses (r : Response) (s : State) : (retire r s).responses = s.responses ++ [r] := rfl
@[simp] theorem retire_resetLine (r : Response) (s : State) : (retire r s).resetLine = s.resetLine := rfl
@[simp] theorem retire_draws (r : Response) (s : State) : (retire r s).draws = s.draws + 4 := rfl
@[simp] theorem retire_setWords (r : Response) (w : Words) (s : State) : retire r (setWords w s) = retire r s := rfl

/-! raiseInvalidArgument -/

@[simp] theorem raiseInvalidArgument_pending (s : State) : (raiseInvalidArgument s).pending = s.pending := rfl
@[simp] theorem raiseInvalidArgument_buf (s : State) : (raiseInvalidArgument s).buf = s.buf := rfl
@[simp] theorem raiseInvalidArgument_v (s : State) : (raiseInvalidArgument s).v = s.v := rfl
@[simp] theorem raiseInvalidArgument_responses (s : State) :
    (raiseInvalidArgument s).responses = s.responses ++ [.err .invalidArgument] := rfl
@[simp] theorem raiseInvalidArgument_resetLine (s : State) : (raiseInvalidArgument s).resetLine = s.resetLine := rfl
@[simp] theorem raiseInvalidArgument_draws (s : State) : (raiseInvalidArgument s).draws = s.draws := rfl

/-! The host's side -/

@[simp] theorem issue_pending (c : Cmd) (s : State) : (issue c s).pending = s.pending ++ [c] := rfl
@[simp] theorem issue_buf (c : Cmd) (s : State) : (issue c s).buf = s.buf := rfl
@[simp] theorem issue_v (c : Cmd) (s : State) : (issue c s).v = s.v := rfl
@[simp] theorem issue_responses (c : Cmd) (s : State) : (issue c s).responses = s.responses := rfl
@[simp] theorem issue_resetLine (c : Cmd) (s : State) : (issue c s).resetLine = s.resetLine := rfl
@[simp] theorem issue_draws (c : Cmd) (s : State) : (issue c s).draws = s.draws := rfl

@[simp] theorem applyReset_pending (s : State) : (applyReset s).pending = s.pending.tail := rfl
@[simp] theorem applyReset_buf (s : State) : (applyReset s).buf = [] := rfl
@[simp] theorem applyReset_responses (s : State) : (applyReset s).responses = s.responses := rfl
@[simp] theorem applyReset_resetLine (s : State) : (applyReset s).resetLine = false := rfl
@[simp] theorem applyReset_draws (s : State) : (applyReset s).draws = s.draws + 4 := rfl

/-- What taking a command does, whole: the oldest leaves the queue and its `DATA` becomes the address space. -/
theorem takeCommand_eq_some (s s1 : State) (c : Cmd) (h : takeCommand s = some (c, s1)) :
    s.pending = c :: s1.pending ∧ s1 = { s with pending := s1.pending, buf := bufferOf c.data } := by
  unfold takeCommand at h
  split at h
  · cases h
  · next hp => cases h; exact ⟨hp, rfl⟩

theorem takeCommand_cons (s : State) (c : Cmd) (rest : List Cmd) (h : s.pending = c :: rest) :
    takeCommand s = some (c, { s with pending := rest, buf := bufferOf c.data }) := by
  simp [takeCommand, h]

theorem takeCommand_nil (s : State) (h : s.pending = []) : takeCommand s = none := by
  simp [takeCommand, h]

/-- The table word's command is the one the next step takes. -/
theorem takeCommand_withFetchWord (s : State) (nbits w : Nat) :
    takeCommand (s.withFetchWord nbits w) = some (tableCmd nbits w, { s with buf := [] }) := rfl

end Sys2Proof.Machine
end

