-- ==== Sys2Proof/Laws/SipCore.lean ====
section
/-! SUPPORT. What the shared operations do, once: reading and absorbing the buffer does not change it and depends on it alone, `hashBlocks` always delivers one response, and `hashBuffer` delivers one, faults or is refused. -/

namespace Sys2Proof.Machine

/-! Absorbing -/

/-- Absorbing full blocks changes the working words alone. -/
theorem absorbBlocks_ok (i : Nat) (s t : State) (n : Nat) (h : absorbBlocks i s n = .ok t) :
    t = setWords t.v s := by
  induction n generalizing i s with
  | zero => cases h; rfl
  | succ n ih =>
    simp only [absorbBlocks] at h
    split at h
    · cases h
    · exact (ih _ (compressWords _ s) h).trans rfl

/-- `SipCore` changes the working words alone. -/
theorem sipCore_ok (len : Nat) (s t : State) (d : Word) (h : sipCore len s = .ok (d, t)) : t = setWords t.v s := by
  simp only [sipCore] at h
  split at h
  · cases h
  · next s1 h1 =>
    split at h
    · cases h
    · cases h
      rw [absorbBlocks_ok 0 s s1 _ h1]
      rfl

theorem absorbList_setWords (blocks : List Word) (w : Words) (s : State) :
    absorbList blocks (setWords w s) = setWords (blocks.foldl compress w) s := by
  induction blocks generalizing w with
  | nil => rfl
  | cons m rest ih => exact ih (compress w m)

/-- Hashing blocks always answers a next state, with the digest of the blocks. -/
theorem hashBlocks_eq (w : Words) (blocks : List Word) (finish : Word → Response) (s : State) :
    hashBlocks w blocks finish s = .next (retire (finish (digestOf w blocks)) s) := by
  simp [hashBlocks, absorbList_setWords, digestOf]

/-- Everything hashing the buffer can do. -/
theorem hashBuffer_cases (w : Words) (len : Nat) (finish : Word → Response) (s : State) :
    (∃ h t, sipCore len (setWords w s) = .ok (h, t) ∧ hashBuffer w len finish s = .next (retire (finish h) s)) ∨
    (∃ f, hashBuffer w len finish s = .fault f) ∨
    (s.buf.length ≠ len ∧ hashBuffer w len finish s = .refused (.lengthMismatch len s.buf.length)) := by
  unfold hashBuffer
  split
  · split
    · exact .inr (.inl ⟨_, rfl⟩)
    · next h t ht =>
      refine .inl ⟨h, t, ht, ?_⟩
      rw [sipCore_ok len _ t h ht]
      rfl
  · next hl => exact .inr (.inr ⟨hl, rfl⟩)

/-! The buffer of a command -/

theorem fullBlock_bufferOf (data : List Byte) (i : Nat) (h : 8 * i + 8 ≤ data.length) :
    fullBlock (bufferOf data) i = .ok (blockOf data i) := by
  obtain ⟨x, hx, hv⟩ := memRead_bufferOf data (8 * i) 8 h
  simp only [fullBlock, hx, blockOf, ← hv]
  exact congrArg Except.ok (BitVec.eq_of_toNat_eq (by rw [BitVec.toNat_setWidth, BitVec.toNat_ofNat]))

theorem absorbBlocks_bufferOf (data : List Byte) (s : State) (w : Words) (hs : s.buf = bufferOf data) (n i : Nat)
    (h : 8 * (i + n) ≤ data.length) :
    absorbBlocks i (setWords w s) n = .ok (setWords (((List.range' i n).map (blockOf data)).foldl compress w) s) := by
  induction n generalizing i w with
  | zero => rfl
  | succ n ih =>
    simp only [absorbBlocks, setWords_buf, hs, fullBlock_bufferOf data i (by omega), compressWords_setWords]
    rw [ih (compress w (blockOf data i)) (i + 1) (by omega), List.range'_succ]
    rfl

theorem orTail_bufferOf (data : List Byte) (base : Nat) (n j : Nat) (acc : Nat) (L : Word)
   (hb : base + j + n = data.length) (hj : j + n ≤ 7) (hacc : acc < 2^(8*j)) :
   orTail (bufferOf data) base j (BitVec.ofNat 64 acc ||| L) n =
     .ok (BitVec.ofNat 64 (acc + 2^(8*j) * leValue (data.drop (base + j))) ||| L) := by
  induction n generalizing j acc with
  | zero =>
    have : data.drop (base + j) = [] := List.drop_of_length_le (by omega)
    simp [orTail, this, leValue]
  | succ n ih =>
    have hlt : base + j < data.length := by omega
    simp only [orTail, memRead_one data _ hlt]
    have hx : data[base+j].toNat < 256 := data[base+j].isLt
    have key : (BitVec.ofNat 64 acc ||| L) ||| (BitVec.setWidth 64 (BitVec.setWidth 8 data[base + j]) <<< (8 * j)) =
       BitVec.ofNat 64 (acc + 2^(8*j) * data[base+j].toNat) ||| L := by
      have e : BitVec.ofNat 64 (acc + 2^(8*j) * data[base+j].toNat) = BitVec.ofNat 64 acc ||| (BitVec.setWidth 64 (BitVec.setWidth 8 data[base + j]) <<< (8 * j)) := by
        apply BitVec.eq_of_toNat_eq
        have h1 : (2:Nat)^(8*j) ≤ 2^48 := Nat.pow_le_pow_right (by omega) (by omega)
        have h2 : data[base+j].toNat * 2^(8*j) < 2^64 := by nlinarith
        rw [BitVec.toNat_or, BitVec.toNat_shiftLeft, BitVec.toNat_setWidth, BitVec.toNat_setWidth, Nat.shiftLeft_eq, BitVec.toNat_ofNat, BitVec.toNat_ofNat, Nat.mod_eq_of_lt (a := acc) (by omega)]
        rw [Nat.mod_eq_of_lt (a := data[base+j].toNat) (b := 2^8) (by omega), Nat.mod_eq_of_lt (a := data[base+j].toNat) (b := 2^64) (by omega),
           Nat.mod_eq_of_lt (a := _ * _) h2, Nat.or_comm, ← Nat.shiftLeft_eq, ← Nat.shiftLeft_add_eq_or_of_lt hacc, Nat.shiftLeft_eq, Nat.mod_eq_of_lt]
        · ring
        · nlinarith
      rw [e, BitVec.or_assoc, BitVec.or_comm L, ← BitVec.or_assoc]
    rw [key, ih (j+1) (acc + 2^(8*j) * data[base+j].toNat) (by omega) (by omega)]
    · rw [show base + (j+1) = base + j + 1 by omega, leValue_drop_succ data (base+j) hlt]
      congr 3
      rw [show 8*(j+1) = 8*j+8 by ring, pow_add]
      ring
    · rw [show 8*(j+1) = 8*j+8 by ring, pow_add]
      nlinarith

theorem lengthByte_toNat (len : Nat) : (lengthByte len).toNat = 2^56 * (len % 256) := by
  have h : len % 256 < 256 := Nat.mod_lt _ (by omega)
  rw [lengthByte, BitVec.toNat_shiftLeft, BitVec.toNat_ofNat, Nat.shiftLeft_eq]
  omega

theorem leValue_tail_lt (data : List Byte) : leValue (data.drop (8 * (data.length / 8))) < 2 ^ 56 := by
  have h := leValue_lt (data.drop (8 * (data.length / 8)))
  have e : (data.drop (8 * (data.length / 8))).length ≤ 7 := by rw [List.length_drop]; omega
  have p : 256 ^ (data.drop (8 * (data.length / 8))).length ≤ 256 ^ 7 := Nat.pow_le_pow_right (by omega) e
  have q : (256 : Nat) ^ 7 = 2 ^ 56 := by norm_num
  omega

theorem finalBlock_bufferOf (data : List Byte) : finalBlock (bufferOf data) data.length = .ok (lastBlockOf data) := by
  have h := orTail_bufferOf data (8 * nBlocks data.length) (data.length % 8) 0 0 (lengthByte data.length)
     (by unfold nBlocks; omega) (by omega) (by omega)
  have e0 : BitVec.ofNat 64 0 ||| lengthByte data.length = lengthByte data.length := by simp
  rw [e0] at h
  rw [finalBlock, h]
  refine congrArg Except.ok (BitVec.eq_of_toNat_eq ?_)
  have ht := leValue_tail_lt data
  have hm : data.length % 256 < 256 := Nat.mod_lt _ (by omega)
  have h1 : leValue (data.drop (8 * (data.length / 8))) % 2 ^ 64 = leValue (data.drop (8 * (data.length / 8))) :=
    Nat.mod_eq_of_lt (by omega)
  rw [BitVec.toNat_or, lengthByte_toNat, lastBlockOf, nBlocks, BitVec.toNat_ofNat, BitVec.toNat_ofNat,
    Nat.add_zero, Nat.mul_zero, pow_zero, Nat.one_mul, Nat.zero_add, h1, Nat.or_comm,
    ← Nat.two_pow_add_eq_or_of_lt ht, Nat.add_comm]
  omega

/-- `SipCore` over the buffer of a byte string is the digest of the byte string. -/
theorem sipCore_bufferOf (data : List Byte) (w : Words) (s : State) (hs : s.buf = bufferOf data) :
    ∃ t, sipCore data.length (setWords w s) = .ok (messageDigest w data, t) := by
  have h := absorbBlocks_bufferOf data s w hs (data.length / 8) 0 (by omega)
  refine ⟨setWords (finalizeRounds ((blocksOf data).foldl compress w)) s, ?_⟩
  simp only [sipCore, nBlocks, h, setWords_buf, hs, finalBlock_bufferOf, compressWords_setWords, finalizeWords_setWords,
    messageDigest, digestOf, blocksOf, List.foldl_append, List.range_eq_range', List.foldl_cons, List.foldl_nil]

/-- On a buffer of the right length `hashBuffer` delivers the digest of its bytes. -/
theorem hashBuffer_bufferOf (data : List Byte) (w : Words) (finish : Word → Response) (s : State)
    (hs : s.buf = bufferOf data) :
    hashBuffer w data.length finish s = .next (retire (finish (messageDigest w data)) s) := by
  obtain ⟨t, ht⟩ := sipCore_bufferOf data w s hs
  rw [hashBuffer, if_pos (by rw [hs, bufferOf_length]), ht]
  have e := sipCore_ok _ _ _ _ ht
  show Host.Outcome.next (retire _ t) = _
  rw [e]
  rfl

/-! Integer messages -/

theorem blocksOf_leBytes8 (num : Word) : blocksOf (leBytes num 8) = [num, lengthBlock64] := by
  have h := leValue_leBytes num 8
  have b : blockOf (leBytes num 8) 0 = num := by
    rw [blockOf, Nat.mul_zero, List.drop_zero, List.take_of_length_le (by simp), h]
    exact BitVec.eq_of_toNat_eq (by have := num.isLt; rw [BitVec.toNat_ofNat]; omega)
  have l : lastBlockOf (leBytes num 8) = lengthBlock64 := by
    rw [lastBlockOf, leBytes_length, List.drop_of_length_le (by simp)]
    rfl
  rw [blocksOf, l, leBytes_length]
  simp [List.range_succ, b]

theorem blocksOf_leBytes4 (num : Half) : blocksOf (leBytes (num.setWidth 64) 4) = [intBlock32 num] := by
  have h := leValue_leBytes (num.setWidth 64) 4
  have hn : num.toNat < 2 ^ 32 := num.isLt
  have l : lastBlockOf (leBytes (num.setWidth 64) 4) = intBlock32 num := by
    rw [lastBlockOf, leBytes_length, List.drop_zero, h]
    refine BitVec.eq_of_toNat_eq ?_
    have e : (0x0400000000000000#64).toNat = 2 ^ 32 * 2 ^ 26 := rfl
    rw [intBlock32, BitVec.toNat_or, e, BitVec.toNat_ofNat, BitVec.toNat_setWidth, Nat.or_comm,
      Nat.mod_eq_of_lt (a := num.toNat) (by omega), ← Nat.two_pow_add_eq_or_of_lt hn]
    omega
  rw [blocksOf, l, leBytes_length]
  rfl

end Sys2Proof.Machine
end

