-- ==== Sys2Proof/Laws/Exec.lean ====
section
/-! SUPPORT. What an operation and a step can do, once: the inversion lemmas every statement about the machine cites. -/

namespace Sys2Proof.Machine

/-- Every way an operation answers a next state: it retires with a value, or it is SIPMOD with a zero modulus and raises. -/
theorem exec_cases (i : Instr) (s t : State) (h : exec i s = .next t) :
    (∃ x, t = retire (.ok x) s) ∨ (t = raiseInvalidArgument s ∧ ∃ k0 k1 len, i = .sipmod k0 k1 len 0#64) := by
  have buffer : ∀ w len finish, (∀ d, ∃ x, finish d = .ok x) → hashBuffer w len finish s = .next t →
      ∃ x, t = retire (.ok x) s := by
    intro w len finish hf hh
    rcases hashBuffer_cases w len finish s with ⟨d, u, _, e⟩ | ⟨f, e⟩ | ⟨_, e⟩
    all_goals (rw [e] at hh; cases hh)
    obtain ⟨x, hx⟩ := hf d
    exact ⟨x, by rw [hx]⟩
  have blocks : ∀ w bs finish, (∀ d, ∃ x, finish d = .ok x) → hashBlocks w bs finish s = .next t →
      ∃ x, t = retire (.ok x) s := by
    intro w bs finish hf hh
    rw [hashBlocks_eq] at hh
    cases hh
    obtain ⟨x, hx⟩ := hf (digestOf w bs)
    exact ⟨x, by rw [hx]⟩
  cases i with
  | siphash k0 k1 len => exact .inl (buffer _ _ _ (fun d => ⟨_, rfl⟩) h)
  | siphash32 k0 k1 num => exact .inl (blocks _ _ _ (fun d => ⟨_, rfl⟩) h)
  | siphash64 k0 k1 num => exact .inl (blocks _ _ _ (fun d => ⟨_, rfl⟩) h)
  | siphash32k256 k0 k1 k2 k3 num => exact .inl (blocks _ _ _ (fun d => ⟨_, rfl⟩) h)
  | siphash64k256 k0 k1 k2 k3 num => exact .inl (blocks _ _ _ (fun d => ⟨_, rfl⟩) h)
  | sipmod k0 k1 len m =>
    by_cases hm : m = 0#64
    · subst hm
      cases h
      exact .inr ⟨rfl, _, _, _, rfl⟩
    · simp only [exec, execSipmod, if_neg hm] at h
      exact .inl (buffer _ _ _ (fun d => ⟨_, rfl⟩) h)

/-- On the buffer of its own message an operation answers `responseOf`, by retiring or by raising. -/
theorem exec_responseOf (i : Instr) (data : List Byte) (s : State) (hb : s.buf = bufferOf data)
    (hw : i.wellFormed data = true) :
    exec i s = .next (retire (responseOf i data) s) ∨
    (responseOf i data = .err .invalidArgument ∧ exec i s = .next (raiseInvalidArgument s)) := by
  cases i with
  | siphash k0 k1 len =>
    obtain rfl : len = data.length := by simpa [Instr.wellFormed, Instr.messageLength] using hw
    exact .inl (hashBuffer_bufferOf data _ _ s hb)
  | siphash32 k0 k1 num =>
    left
    simp [exec, execSiphash32, hashBlocks_eq, responseOf, messageDigest, blocksOf_leBytes4, okNarrowed]
  | siphash64 k0 k1 num =>
    left
    simp [exec, execSiphash64, hashBlocks_eq, responseOf, messageDigest, blocksOf_leBytes8, okWord]
  | siphash32k256 k0 k1 k2 k3 num =>
    left
    simp [exec, execSiphash32k256, hashBlocks_eq, responseOf, messageDigest, blocksOf_leBytes4, okNarrowed]
  | siphash64k256 k0 k1 k2 k3 num =>
    left
    simp [exec, execSiphash64k256, hashBlocks_eq, responseOf, messageDigest, blocksOf_leBytes8, okWord]
  | sipmod k0 k1 len m =>
    obtain rfl : len = data.length := by simpa [Instr.wellFormed, Instr.messageLength] using hw
    by_cases hm : m = 0#64
    · exact .inr ⟨by simp [responseOf, hm], by simp [exec, execSipmod, hm]⟩
    · left
      simp [exec, execSipmod, responseOf, hm, hashBuffer_bufferOf data _ _ s hb, okReduced]

/-- Everything a step can do: a reset, waiting, running the oldest command, or refusing it. -/
theorem step_cases (s : State) :
    (s.resetLine = true ∧ step s = .next (applyReset s)) ∨
    (s.resetLine = false ∧ s.pending = [] ∧ step s = .next s) ∨
    (∃ c rest i, s.resetLine = false ∧ s.pending = c :: rest ∧ decode c = .ok i ∧
      step s = exec i { s with pending := rest, buf := bufferOf c.data }) ∨
    (∃ c rest e, s.resetLine = false ∧ s.pending = c :: rest ∧ decode c = .error e ∧ step s = .refused (refusalOf e)) := by
  cases hr : s.resetLine with
  | true => exact .inl ⟨rfl, by simp [step, hr]⟩
  | false =>
    cases hp : s.pending with
    | nil => exact .inr (.inl ⟨rfl, rfl, by simp [step, hr, takeCommand, hp]⟩)
    | cons c rest =>
      rcases hd : decode c with e | i
      · exact .inr (.inr (.inr ⟨c, rest, e, rfl, rfl, hd, by simp [step, hr, takeCommand, hp, hd]⟩))
      · exact .inr (.inr (.inl ⟨c, rest, i, rfl, rfl, hd, by simp [step, hr, takeCommand, hp, hd]⟩))

end Sys2Proof.Machine
end

