-- ==== Sys2Proof/Laws/PerInstr.lean ====
section
/-! SUPPORT. Per instruction: the record the encoder writes for a well-formed instruction is a well-formed record, with the operation code of R50 of spec/30_encoding.md. -/

namespace Sys2Proof.Laws.EncodesWell

/-- The operation code of an instruction, from the table of R50. -/
def opCode : Instr → BitVec 3
  | .siphash _ _ _ => 0#3
  | .siphash32 _ _ _ => 1#3
  | .siphash64 _ _ _ => 2#3
  | .siphash32k256 _ _ _ _ _ => 3#3
  | .siphash64k256 _ _ _ _ _ => 4#3
  | .sipmod _ _ _ _ => 5#3

/-- The encoder writes the instruction's code and a record that is a command. -/
def Statement (i : Instr) : Prop :=
  ∀ data : List Byte, i.wellFormed data = true → (encode i data).op = opCode i ∧ (encode i data).wellFormed = true

theorem siphash (k0 k1 : Word) (len : Nat) : Statement (.siphash k0 k1 len) := fun data h =>
  ⟨rfl, by simpa [Instr.wellFormed, Instr.messageLength, encode, Cmd.wellFormed] using h⟩

theorem siphash32 (k0 k1 : Word) (num : Half) : Statement (.siphash32 k0 k1 num) := fun _ _ => ⟨rfl, rfl⟩

theorem siphash64 (k0 k1 num : Word) : Statement (.siphash64 k0 k1 num) := fun _ _ => ⟨rfl, rfl⟩

theorem siphash32k256 (k0 k1 k2 k3 : Word) (num : Half) : Statement (.siphash32k256 k0 k1 k2 k3 num) := fun _ _ =>
  ⟨rfl, rfl⟩

theorem siphash64k256 (k0 k1 k2 k3 num : Word) : Statement (.siphash64k256 k0 k1 k2 k3 num) := fun _ _ => ⟨rfl, rfl⟩

theorem sipmod (k0 k1 : Word) (len : Nat) (m : Word) : Statement (.sipmod k0 k1 len m) := fun data h =>
  ⟨rfl, by simpa [Instr.wellFormed, Instr.messageLength, encode, Cmd.wellFormed] using h⟩

end Sys2Proof.Laws.EncodesWell
end

