-- ==== Sys2Proof/Tests/Slice0.lean ====
section
/-! SUPPORT. Tests with expected results from spec/95_test_vectors.md and the rules' worked examples; the ill-formed terms WellFormed refuses; and for each statement with hypotheses a witness that meets them. -/

namespace Sys2Proof.Tests

open Sys2Proof.Machine

/-! Helpers -/

/-- The reference key's words (R36, R60). -/
def refK0 : Word := 0x0706050403020100#64
def refK1 : Word := 0x0f0e0d0c0b0a0908#64

/-- The packed reference key, 128 and 256 bits (section 4.5). -/
def keyR : Key := 0x0f0e0d0c0b0a09080706050403020100#256
def key256R : Key := 0x1f1e1d1c1b1a191817161514131211100f0e0d0c0b0a09080706050403020100#256

/-- The message 00 01 .. (n-1), bytes modulo 256. -/
def count (n : Nat) : List Byte := (List.range n).map (BitVec.ofNat 8)

/-- The machine after reset with these commands issued. -/
def withCmds (cs : List Cmd) : State := { State.reset with pending := cs }

/-- The machine with this message buffer. -/
def withBuffer (data : List Byte) : State := { State.reset with buf := bufferOf data }

/-- The response the next step delivers. -/
def answer (s : State) : Option Response :=
  match step s with
  | .next t => t.responses.getLast?
  | _ => none

/-- The refusal the next step ends in. -/
def refusal (s : State) : Option Refusal :=
  match step s with
  | .refused r => some r
  | _ => none

/-- A SIPHASH record under the reference key. -/
def hashCmd (data : List Byte) : Cmd := ⟨0#3, keyR, 0#64, 0#64, data.length, data⟩

/-! WellFormed: one ill-formed term for each check -/

theorem test_siphash_wrong_length : (Instr.siphash refK0 refK1 2).wellFormed [0#8] = false := by decide
theorem test_sipmod_wrong_length : (Instr.sipmod refK0 refK1 0 1#64).wellFormed [0#8] = false := by decide
theorem test_integer_ignores_data : (Instr.siphash32 refK0 refK1 0#32).wellFormed [0#8] = true := by decide
theorem test_cmd_reserved_op : (Cmd.mk 6#3 keyR 0#64 0#64 0 []).wellFormed = false := by decide
theorem test_cmd_wrong_length : (Cmd.mk 5#3 keyR 0#64 0#64 2 [0#8]).wellFormed = false := by decide

/-! Decoding: the records of section 4.5, written out field by field -/

theorem test_decode_siphash : decode ⟨0b000#3, keyR, 0x1234#64, 0#64, 1, [0#8]⟩ = .ok (.siphash refK0 refK1 1) := by decide
theorem test_decode_siphash32 :
    decode ⟨0b001#3, keyR, 0xffffffff03020100#64, 0#64, 0, []⟩ = .ok (.siphash32 refK0 refK1 0x03020100#32) := by decide
theorem test_decode_siphash64 :
    decode ⟨0b010#3, keyR, 0x0706050403020100#64, 0#64, 0, []⟩ = .ok (.siphash64 refK0 refK1 0x0706050403020100#64) := by decide
theorem test_decode_siphash32k256 : decode ⟨0b011#3, key256R, 0x03020100#64, 0#64, 0, []⟩ =
    .ok (.siphash32k256 refK0 refK1 0x1716151413121110#64 0x1f1e1d1c1b1a1918#64 0x03020100#32) := by decide
theorem test_decode_siphash64k256 : decode ⟨0b100#3, key256R, 0x0706050403020100#64, 0#64, 0, []⟩ =
    .ok (.siphash64k256 refK0 refK1 0x1716151413121110#64 0x1f1e1d1c1b1a1918#64 0x0706050403020100#64) := by decide
theorem test_decode_sipmod : decode ⟨0b101#3, keyR, 0#64, 0xa#64, 0, []⟩ = .ok (.sipmod refK0 refK1 0 0xa#64) := by decide
theorem test_decode_reserved : decode ⟨0b110#3, keyR, 0#64, 0#64, 0, []⟩ = .error (.reservedOp 6#3) ∧
    decode ⟨0b111#3, keyR, 0#64, 0#64, 0, []⟩ = .error (.reservedOp 7#3) := by decide
theorem test_decode_length : decode ⟨0b000#3, keyR, 0#64, 0#64, 2, [0#8]⟩ = .error (.lengthMismatch 2 1) := by decide
theorem test_table_words : (List.range 8).map (decodeTableWord 8) =
    [some (.siphash 0#64 0#64 0), some (.siphash32 0#64 0#64 0#32), some (.siphash64 0#64 0#64 0#64),
     some (.siphash32k256 0#64 0#64 0#64 0#64 0#32), some (.siphash64k256 0#64 0#64 0#64 0#64 0#64),
     some (.sipmod 0#64 0#64 0 0#64), none, none] := by decide
/-- `KEYSTR ffeeddccbbaa99887766554433221100` (section 4.5). -/
theorem test_key_string :
    let k := keyString [0xff#8, 0xee#8, 0xdd#8, 0xcc#8, 0xbb#8, 0xaa#8, 0x99#8, 0x88#8, 0x77#8, 0x66#8, 0x55#8, 0x44#8, 0x33#8, 0x22#8, 0x11#8, 0x00#8]
    keyWord k 0 = 0x8899aabbccddeeff#64 ∧ keyWord k 1 = 0x0011223344556677#64 := by decide

/-! The datapath: section 4.1 -/

theorem test_sipRound_example : sipRound ⟨1#64, 2#64, 3#64, 4#64⟩ =
    ⟨0x0000000300040007#64, 0x000000008006400a#64, 0x0000400a00000000#64, 0x0000008300e40007#64⟩ := by decide
theorem test_sipRound_wraps :
    sipRound ⟨0xffffffffffffffff#64, 0xffffffffffffffff#64, 0xffffffffffffffff#64, 0xffffffffffffffff#64⟩ =
    ⟨0xffffffff00000000#64, 0xfffffffffffdffff#64, 0xffffffffffffffff#64, 0xffffffff00200000#64⟩ := by decide
theorem test_init128 : init128 refK0 refK1 =
    ⟨0x7469686173716475#64, 0x6b617f6d656e6665#64, 0x6b7f62616d677361#64, 0x7b6b696e727e6c7b#64⟩ := by decide
theorem test_k256Init : k256Init refK0 refK1 0x1716151413121110#64 0x1f1e1d1c1b1a1918#64 =
    ⟨0x7469686173716475#64, 0x6b617f6d656e6665#64, 0x7b6f72717d776371#64, 0x6b7b797e626e7c6b#64⟩ := by decide
theorem test_compress : compress (init128 refK0 refK1) 0x0706050403020100#64 =
    ⟨0x4a017198de0a59e0#64, 0x0d52f6f62a4f59a4#64, 0x634cb3577b01fd3d#64, 0xa5224d6f55c7d9c8#64⟩ := by decide +kernel
theorem test_finalize_zero : xorWords (finalizeRounds ⟨0#64, 0#64, 0#64, 0#64⟩) = 0x3c4ceb5cc070daa0#64 := by decide +kernel
theorem test_narrow32 : narrow32 .truncLow 0x0123456789abcdef#64 = 0x89abcdef#32 ∧
    narrow32 .xorFold 0x0123456789abcdef#64 = 0x88888888#32 := by decide
theorem test_reduce : reduce 0x726fdb47dd0e0e31#64 10#64 = 4#64 ∧
    reduce 0xffffffffffffffff#64 0xffffffffffffffff#64 = 0xfffffffffffffffe#64 ∧
    reduce 0xaaaaaaaaaaaaaaaa#64 3#64 = 1#64 ∧ reduce 0xaaaaaaaaaaaaaaab#64 3#64 = 2#64 := by decide
theorem test_finalBlock_lengths : [0, 1, 7, 8, 15].map (fun n => (finalBlock (bufferOf (count n)) n).toOption) =
    [some 0#64, some 0x0100000000000000#64, some 0x0706050403020100#64, some 0x0800000000000000#64,
     some 0x0f0e0d0c0b0a0908#64] := by decide +kernel
theorem test_memRead : (memRead (bufferOf [0x0d#8, 0x0c#8, 0x0b#8]) 1 2).toOption = some 0x0b0c#16 ∧
    (memRead (bufferOf [0x0d#8]) 1 1).toOption = none := by decide

/-- The published vectors of section 2, lengths 0 to 16. -/
theorem test_published_vectors : (List.range 17).map (fun n => messageDigest (init128 refK0 refK1) (count n)) =
    [0x726fdb47dd0e0e31#64, 0x74f839c593dc67fd#64, 0x0d6c8009d9a94f5a#64, 0x85676696d7fb7e2d#64, 0xcf2794e0277187b7#64,
     0x18765564cd99a68d#64, 0xcbc9466e58fee3ce#64, 0xab0200f58b01d137#64, 0x93f5f5799a932462#64, 0x9e0082df0ba9e4b0#64,
     0x7a5dbbc594ddb9f3#64, 0xf4b32f46226bada7#64, 0x751e8fbc860ee5fb#64, 0x14ea5627c0843d90#64, 0xf723ca908e7af2ee#64,
     0xa129ca6149be45e5#64, 0x3f2acc7f57c29bdb#64] := by decide +kernel

/-! One step of each operation -/

/-- Section 2, n = 1, with the ignored fields set (section 4.5). -/
theorem test_siphash_one_byte :
    answer (withCmds [⟨0#3, 0xffffffffffffffffffffffffffffffff0f0e0d0c0b0a09080706050403020100#256, 0x1234#64, 0#64, 1, [0#8]⟩]) =
    some (.ok (.u64 0x74f839c593dc67fd#64)) := by decide +kernel
/-- Section 3.3, the 15-byte example. -/
theorem test_siphash_paper : answer (withCmds [hashCmd (count 15)]) = some (.ok (.u64 0xa129ca6149be45e5#64)) := by decide +kernel
/-- Section 4.2: the digest SIPHASH32 narrows, and the response under the instance's narrowing. -/
theorem test_siphash32_digest : digestOf (init128 refK0 refK1) [intBlock32 0xdeadbeef#32] = 0x13a7c1e0555a2f18#64 := by
  decide +kernel
theorem test_siphash32 (s : State) : exec (.siphash32 refK0 refK1 0xdeadbeef#32) s =
    .next (retire (.ok (.u32 (narrow32 Config.narrow32 0x13a7c1e0555a2f18#64))) s) := by
  rw [← test_siphash32_digest]
  exact hashBlocks_eq _ _ _ s
/-- Section 4.2: the data block equals the length block. -/
theorem test_siphash64 : answer (withCmds [⟨2#3, keyR, 0x0800000000000000#64, 0#64, 0, []⟩]) =
    some (.ok (.u64 0x22c2a946c235b0c0#64)) := by decide +kernel
/-- Section 4.6: SIPHASH64 of 0 is not the digest of the empty message. -/
theorem test_siphash64_zero : answer (withCmds [⟨2#3, keyR, 0#64, 0#64, 0, []⟩]) = some (.ok (.u64 0x39d3851ca07681a7#64)) := by
  decide +kernel
/-- Section 4.3. -/
theorem test_siphash32k256_digest :
    digestOf (k256Init refK0 refK1 0x1716151413121110#64 0x1f1e1d1c1b1a1918#64) [intBlock32 0x80000000#32] =
    0x915ed8d165edd58b#64 := by decide +kernel
theorem test_siphash32k256 (s : State) :
    exec (.siphash32k256 refK0 refK1 0x1716151413121110#64 0x1f1e1d1c1b1a1918#64 0x80000000#32) s =
    .next (retire (.ok (.u32 (narrow32 Config.narrow32 0x915ed8d165edd58b#64))) s) := by
  rw [← test_siphash32k256_digest]
  exact hashBlocks_eq _ _ _ s
/-- Section 4.3: one bit of `k3` changed (program P4 line 3). -/
theorem test_siphash64k256 :
    answer (withCmds [⟨4#3, 0x1f1e1d1c1b1a191917161514131211100f0e0d0c0b0a09080706050403020100#256, 0x0706050403020100#64, 0#64, 0, []⟩]) =
    some (.ok (.u64 0xe91d7b72aa7049ee#64)) := by decide +kernel
theorem test_siphash64k256_minus_one :
    answer (withCmds [⟨4#3, key256R, 0xffffffffffffffff#64, 0#64, 0, []⟩]) = some (.ok (.u64 0x56df6ddba0514ab6#64)) := by decide +kernel
/-- Section 4.4. -/
theorem test_sipmod : answer (withCmds [⟨5#3, keyR, 0#64, 0x3b9aca07#64, 15, count 15⟩]) = some (.ok (.u64 0x258613f7#64)) := by
  decide +kernel
theorem test_sipmod_zero : answer (withCmds [⟨5#3, keyR, 0#64, 0#64, 15, count 15⟩]) = some (.err .invalidArgument) := by decide
/-- Section 4.5: the refusals. -/
theorem test_refusals : refusal (withCmds [⟨7#3, keyR, 0#64, 0#64, 0, []⟩]) = some (.reservedOp 7#3) ∧
    refusal (withCmds [⟨0#3, keyR, 0#64, 0#64, 2, [0#8]⟩]) = some (.lengthMismatch 2 1) := by decide
/-- `M = 0` is an error for SIPMOD only (section 4.4). -/
theorem test_zero_modulus_ignored : answer (withCmds [⟨0#3, keyR, 0#64, 0#64, 0, []⟩]) = some (.ok (.u64 0x726fdb47dd0e0e31#64)) := by
  decide +kernel
/-- The table's words run as the first command after reset. -/
theorem test_fetch_word : answer (State.reset.withFetchWord 8 0) = some (.ok (.u64 0x1e924b9d737700d7#64)) ∧
    answer (State.reset.withFetchWord 8 5) = some (.err .invalidArgument) := by decide +kernel

/-! Witnesses: states and operands that meet the hypotheses of the statements -/

/-- The command the witnesses issue. -/
def sample : Cmd := hashCmd [0#8]
/-- A failing SIPMOD. -/
def failing : Cmd := ⟨5#3, keyR, 0#64, 0#64, 0, []⟩

theorem witness_DecodeInvertsEncode : (Instr.siphash refK0 refK1 1).wellFormed [0#8] = true ∧
    (Instr.siphash refK0 refK1 1).messageLength ≠ none ∧ (Instr.sipmod refK0 refK1 0 0#64).wellFormed [] = true ∧
    (Instr.siphash64 refK0 refK1 0#64).wellFormed [] = true := by decide
theorem witness_DecodeFollowsTheCodeMap : sample.op = 0#3 ∧ sample.len = sample.data.length ∧
    (Cmd.mk 1#3 keyR 0#64 0#64 0 []).op = 1#3 ∧ (Cmd.mk 2#3 keyR 0#64 0#64 0 []).op = 2#3 ∧
    (Cmd.mk 3#3 keyR 0#64 0#64 0 []).op = 3#3 ∧ (Cmd.mk 4#3 keyR 0#64 0#64 0 []).op = 4#3 ∧
    failing.op = 5#3 ∧ failing.len = failing.data.length ∧ (Cmd.mk 7#3 keyR 0#64 0#64 0 []).op = 7#3 := by decide
theorem witness_ReservedCodesAreRefused :
    (withCmds [⟨6#3, keyR, 0#64, 0#64, 0, []⟩]).resetLine = false ∧
    (withCmds [⟨6#3, keyR, 0#64, 0#64, 0, []⟩]).pending = [⟨6#3, keyR, 0#64, 0#64, 0, []⟩] ∧ (6#3 = 6#3 ∨ 6#3 = 7#3) := by decide
theorem witness_LengthMismatchIsRefused :
    (withCmds [⟨5#3, keyR, 0#64, 0#64, 2, [0#8]⟩]).resetLine = false ∧
    (withCmds [⟨5#3, keyR, 0#64, 0#64, 2, [0#8]⟩]).pending = [⟨5#3, keyR, 0#64, 0#64, 2, [0#8]⟩] ∧
    (Cmd.mk 0#3 keyR 0#64 0#64 0 [0#8]).len ≠ (Cmd.mk 0#3 keyR 0#64 0#64 0 [0#8]).data.length ∧ (2 : Nat) ≠ [0#8].length ∧
    (withBuffer [0#8]).buf.length ≠ 0 ∧ 1#64 ≠ 0#64 := by decide
theorem witness_UnreadFieldsAreIgnored :
    SameOperands ⟨1#3, keyR, 0xffffffff03020100#64, 0#64, 0, []⟩ ⟨1#3, key256R, 0x03020100#64, 7#64, 3, [0#8]⟩ := by
  unfold SameOperands; decide
theorem witness_UnreadFieldsAreIgnored_message :
    SameOperands ⟨5#3, keyR, 1#64, 3#64, 1, [0#8]⟩ ⟨5#3, key256R, 2#64, 3#64, 1, [0#8]⟩ := by unfold SameOperands; decide
theorem witness_KeyStringsAreLittleEndian : (count 16).length = 16 ∧ (count 32).length = 32 ∧ 31 < (count 32).length ∧
    8 * 3 + 8 ≤ (count 32).length ∧ 8 * 1 + 8 ≤ (count 16).length := by decide
theorem witness_StepRunsTheDecodedInstruction : (withCmds [sample, failing]).resetLine = false ∧
    (withCmds [sample, failing]).pending = sample :: [failing] ∧ decode sample = .ok (.siphash refK0 refK1 1) := by decide
theorem witness_EngineWaitsWithNoCommand : State.reset.resetLine = false ∧ State.reset.pending = [] := by decide
theorem witness_ResetAbandonsTheCommand : ({ withCmds [failing, sample] with resetLine := true } : State).resetLine = true ∧
    (applyReset (withCmds [failing, sample])).pending = sample :: [] ∧ sample.wellFormed = true := by decide
theorem witness_FirstCommandAfterResetIsLikeAnyOther : sample.wellFormed = true ∧ failing.wellFormed = true := by decide
theorem witness_StepKeepsTheBufferCanonical : (withCmds [sample]).Inv ∧ ∃ t, step (withCmds [sample]) = .next t :=
  ⟨⟨rfl, rfl⟩, _, rfl⟩
theorem witness_MemReadIsLittleEndian : 0 + 8 ≤ (count 8).length ∧ 7 + 1 ≤ (count 8).length ∧ 0 < 1 ∧ (count 8).length < 8 + 1 ∧
    (count 8).length < 1 + 8 := by decide
/-- A read that starts outside the buffer: the fault names an address of the read. -/
theorem witness_MemReadIsLittleEndian_outside : 0 < 2 ∧ ([] : List Byte).length < 5 + 2 ∧
    memRead (bufferOf []) 5 2 = .error (.outOfBuffer 5) := ⟨by decide, by decide, rfl⟩
theorem witness_FullBlocksAreLittleEndian :
    ((count 16).drop (8 * 1)).take 8 = [8#8, 9#8, 10#8, 11#8, 12#8, 13#8, 14#8, 15#8] := by decide
theorem witness_NoInstructionWritesMemory : ∃ t, exec (.siphash refK0 refK1 1) (withBuffer [0#8]) = .next t := ⟨_, rfl⟩
theorem witness_EveryKeyWordReachesTheState : (refK0, refK1, 0#64, 0#64) ≠ (refK0, refK1, 0#64, 1#64) := by decide
theorem witness_RotationMovesEveryBit : 1 ≤ 1 ∧ 1 ≤ 63 ∧ 63 < 64 ∧ 63 ≤ 63 := by decide
theorem witness_ReduceIsTheHighHalf : 1#64 ≠ 0#64 ∧ 1 ≤ 63 ∧ 63 ≤ 63 ∧ (0#64).toNat ≤ (0xffffffffffffffff#64).toNat := by decide
theorem witness_SiphashRespondsWithTheDigest : (withBuffer []).buf = bufferOf [] ∧ (withBuffer (count 9)).buf = bufferOf (count 9) :=
  ⟨rfl, rfl⟩
theorem witness_SipmodRespondsBelowTheModulus : (withBuffer (count 9)).buf = bufferOf (count 9) ∧ 1#64 ≠ 0#64 := ⟨rfl, by decide⟩
theorem witness_OnlySipmodWithZeroModulusFails :
    (∃ t, exec (.sipmod refK0 refK1 3 0#64) (withBuffer []) = .next t) ∧
    (∃ t, exec (.siphash64k256 refK0 refK1 0#64 0#64 0#64) (withBuffer []) = .next t) := ⟨⟨_, rfl⟩, ⟨_, rfl⟩⟩
theorem witness_OperationsChangeOnlyResponsesAndWorkingWords :
    (∃ t, exec (.sipmod refK0 refK1 3 0#64) (withBuffer []) = .next t ∧ Delivers (withBuffer []) (.err .invalidArgument) t) ∧
    (∃ t, exec (.siphash32 refK0 refK1 0#32) (withBuffer []) = .next t) := ⟨⟨_, rfl, rfl, rfl, rfl, rfl⟩, ⟨_, rfl⟩⟩
theorem witness_IntegerOperationsAgreeWithSiphash :
    (withBuffer (leBytes 1#64 8)).buf = bufferOf (leBytes 1#64 8) ∧
    (withBuffer (leBytes ((1#32).setWidth 64) 4)).buf = bufferOf (leBytes ((1#32).setWidth 64) 4) := ⟨rfl, rfl⟩
theorem witness_SipmodReducesSiphash : 3#64 ≠ 0#64 ∧ ∃ t, exec (.siphash refK0 refK1 1) (withBuffer [0#8]) = .next t :=
  ⟨by decide, _, rfl⟩
theorem witness_IntegerOperationsTouchNoMemory : (Instr.siphash32k256 refK0 refK1 0#64 0#64 0#32).messageLength = none := rfl
theorem witness_AnswerDependsOnTheCommandAlone :
    (withCmds [sample]).resetLine = false ∧ ({ withBuffer [7#8] with pending := [sample, failing] } : State).resetLine = false ∧
    (withCmds [sample]).pending = sample :: [] ∧
    ({ withBuffer [7#8] with pending := [sample, failing] } : State).pending = sample :: [failing] ∧ sample.wellFormed = true ∧
    (Cmd.mk 7#3 keyR 0#64 0#64 0 []).wellFormed = false := by decide
theorem witness_RunDeliversEveryResponse : (withCmds [sample, failing, sample]).resetLine = false ∧
    ∀ c ∈ (withCmds [sample, failing, sample]).pending, c.wellFormed = true := by decide
theorem witness_StepKeepsTheCommandsRunnable : (withCmds [sample, failing]).Ready ∧
    ∃ t, step (withCmds [sample, failing]) = .next t := ⟨⟨rfl, by decide⟩, _, rfl⟩
theorem witness_OrderOfCommandsDoesNotMatter :
    (withCmds [failing, sample]).pending = [failing] ++ sample :: [] ∧ (withCmds [sample, failing]).pending = [] ++ sample :: [failing] ∧
    (∀ d ∈ (withCmds [failing, sample]).pending, d.wellFormed = true) ∧
    (∀ d ∈ (withCmds [sample, failing]).pending, d.wellFormed = true) := by decide
theorem witness_ErrorIsNotSticky : (withCmds [failing, sample]).resetLine = false ∧
    (withCmds [failing, sample]).pending = failing :: sample :: [] ∧ decode failing = .ok (.sipmod refK0 refK1 0 0#64) := by decide

end Sys2Proof.Tests
end

section
/-! The decoder and the step: which records decode, and what a step does with the oldest command. -/

namespace Sys2Proof

theorem op_cases (op : BitVec 3) :
    op = 0#3 ∨ op = 1#3 ∨ op = 2#3 ∨ op = 3#3 ∨ op = 4#3 ∨ op = 5#3 ∨ op = 6#3 ∨ op = 7#3 := by
  decide +revert

/-- The decoder accepts exactly the well-formed records: one case for each operation code. -/
theorem exists_decode_eq_ok_iff (c : Cmd) : (∃ i, decode c = .ok i) ↔ c.wellFormed = true := by
  have message (i : Instr) : (∃ j, decodeMessage c i = .ok j) ↔ c.len = c.data.length := by
    unfold decodeMessage
    split <;> simp [*]
  rcases op_cases c.op with h | h | h | h | h | h | h | h <;>
    simp [decode, Cmd.wellFormed, h, message]

theorem decode_lengthMismatch (c : Cmd) (hop : c.op = 0#3 ∨ c.op = 5#3) (hlen : c.len ≠ c.data.length) :
    decode c = .error (.lengthMismatch c.len c.data.length) := by
  rcases hop with h | h <;> simp [decode, decodeMessage, h, hlen]

namespace Machine

theorem step_of_decode_ok (s : State) (c : Cmd) (rest : List Cmd) (i : Instr) (hr : s.resetLine = false)
    (hp : s.pending = c :: rest) (hd : decode c = .ok i) :
    step s = exec i { s with pending := rest, buf := bufferOf c.data } := by
  simp [step, hr, takeCommand_cons s c rest hp, hd]

theorem step_of_decode_error (s : State) (c : Cmd) (rest : List Cmd) (e : DecodeError) (hr : s.resetLine = false)
    (hp : s.pending = c :: rest) (hd : decode c = .error e) : step s = .refused (refusalOf e) := by
  simp [step, hr, takeCommand_cons s c rest hp, hd]

end Machine
end Sys2Proof
end

section
/-! What a delivery changes, and what the outcome of an operation depends on. -/

namespace Sys2Proof.Machine

theorem delivers_retire (r : Response) (s : State) : Delivers s r (retire r s) := ⟨rfl, rfl, rfl, rfl⟩

theorem delivers_raiseInvalidArgument (s : State) : Delivers s (.err .invalidArgument) (raiseInvalidArgument s) :=
  ⟨rfl, rfl, rfl, rfl⟩

/-- On the buffer of its own message an operation delivers `responseOf`. -/
theorem exec_delivers_responseOf (i : Instr) (data : List Byte) (s : State) (hb : s.buf = bufferOf data)
    (hw : i.wellFormed data = true) : ∃ t, exec i s = .next t ∧ Delivers s (responseOf i data) t := by
  rcases exec_responseOf i data s hb hw with h | ⟨hr, h⟩
  · exact ⟨_, h, delivers_retire _ s⟩
  · exact ⟨_, h, hr ▸ delivers_raiseInvalidArgument s⟩

/-- A step that takes a well-formed command delivers the command's own response. -/
theorem step_delivers_commandResponse (s : State) (c : Cmd) (rest : List Cmd) (hr : s.resetLine = false)
    (hp : s.pending = c :: rest) (hw : c.wellFormed = true) :
    ∃ t r, step s = .next t ∧ commandResponse c = some r ∧
      Delivers { s with pending := rest, buf := bufferOf c.data } r t := by
  obtain ⟨i, hd⟩ := (exists_decode_eq_ok_iff c).mpr hw
  obtain ⟨t, ht, hdel⟩ := exec_delivers_responseOf i c.data { s with pending := rest, buf := bufferOf c.data } rfl
    (decode_wellFormed c i hd)
  exact ⟨t, responseOf i c.data, (step_of_decode_ok s c rest i hr hp hd).trans ht, by simp [commandResponse, hd], hdel⟩

/-- Absorbing full blocks reads the buffer and the working words alone. -/
theorem absorbBlocks_congr (i : Nat) (s t : State) (n : Nat) (hb : s.buf = t.buf) (hv : s.v = t.v) :
    absorbBlocks i t n = (absorbBlocks i s n).map (fun u => setWords u.v t) := by
  induction n generalizing i s t with
  | zero => simp [absorbBlocks, Except.map, hv, setWords]
  | succ n ih =>
    simp only [absorbBlocks, hb]
    cases fullBlock t.buf i with
    | error f => rfl
    | ok m => exact ih (i + 1) (compressWords m s) (compressWords m t) hb (by simp [compressWords_eq, hv])

/-- `SipCore` reads the buffer and the working words alone. -/
theorem sipCore_congr (len : Nat) (s t : State) (hb : s.buf = t.buf) (hv : s.v = t.v) :
    sipCore len t = (sipCore len s).map (fun p => (p.1, setWords p.2.v t)) := by
  simp only [sipCore, absorbBlocks_congr 0 s t _ hb hv]
  cases h : absorbBlocks 0 s (nBlocks len) with
  | error f => rfl
  | ok u =>
    have hu : u.buf = t.buf := (congrArg State.buf (absorbBlocks_ok 0 s u _ h)).trans hb
    simp only [Except.map, setWords_buf, hu]
    cases finalBlock t.buf len <;> rfl

/-- What the host sees of hashing the buffer depends on the buffer and the earlier responses alone: the working words are
written before they are read. -/
theorem visible_hashBuffer_congr (w : Words) (len : Nat) (finish : Word → Response) (s t : State)
    (hb : s.buf = t.buf) (hr : s.responses = t.responses) :
    visible (hashBuffer w len finish s) = visible (hashBuffer w len finish t) := by
  simp only [hashBuffer, hb, sipCore_congr len (setWords w s) (setWords w t) hb rfl]
  split
  · cases h : sipCore len (setWords w s) with
    | error f => rfl
    | ok p =>
      have hp : p.2.responses = s.responses := (congrArg State.responses (sipCore_ok len _ p.2 p.1 h)).trans rfl
      simp [Except.map, visible, hp, hr]
  · rfl

theorem visible_hashBlocks_congr (w : Words) (blocks : List Word) (finish : Word → Response) (s t : State)
    (hr : s.responses = t.responses) :
    visible (hashBlocks w blocks finish s) = visible (hashBlocks w blocks finish t) := by
  simp [hashBlocks_eq, visible, hr]

/-- What the host sees of an operation depends on the buffer and the earlier responses alone. -/
theorem visible_exec_congr (i : Instr) (s t : State) (hb : s.buf = t.buf) (hr : s.responses = t.responses) :
    visible (exec i s) = visible (exec i t) := by
  cases i with
  | siphash => exact visible_hashBuffer_congr _ _ _ s t hb hr
  | siphash32 | siphash64 | siphash32k256 | siphash64k256 => exact visible_hashBlocks_congr _ _ _ s t hr
  | sipmod k0 k1 len m =>
    simp only [exec, execSipmod]
    split
    · simp [visible, hr]
    · exact visible_hashBuffer_congr _ _ _ s t hb hr

theorem hashBuffer_of_length_ne (w : Words) (len : Nat) (finish : Word → Response) (s : State)
    (h : s.buf.length ≠ len) : hashBuffer w len finish s = .refused (.lengthMismatch len s.buf.length) :=
  if_neg h

theorem exec_sipmod_of_ne_zero (k0 k1 m : Word) (len : Nat) (s : State) (hm : m ≠ 0#64) :
    exec (.sipmod k0 k1 len m) s = hashBuffer (init128 k0 k1) len (okReduced m) s :=
  if_neg hm

end Sys2Proof.Machine
end

section
/-! The statements of the state: refused lengths, the frame, and what an answer depends on. -/

namespace Sys2Proof.Machine

/-- Settles O5: the decoder refuses the record, and `hashBuffer` the buffer. -/
theorem lengthMismatchIsRefused : Obligations.LengthMismatchIsRefused := by
  refine ⟨fun s c rest hr hp hop hlen => ?_, fun s k0 k1 len hlen => ?_, fun s k0 k1 m len hm hlen => ?_⟩
  · exact step_of_decode_error s c rest _ hr hp (decode_lengthMismatch c hop hlen)
  · exact hashBuffer_of_length_ne _ len _ s hlen
  · rw [exec_sipmod_of_ne_zero k0 k1 m len s hm]
    exact hashBuffer_of_length_ne _ len _ s hlen

/-- Settles O34: an operation that answers either retires with a value or raises the error, and both deliver one response. -/
theorem operationsChangeOnlyResponsesAndWorkingWords :
    Obligations.OperationsChangeOnlyResponsesAndWorkingWords := by
  intro i s t h
  rcases exec_cases i s t h with ⟨x, rfl⟩ | ⟨rfl, -⟩
  · exact ⟨.ok x, delivers_retire _ s, fun _ => rfl, nofun⟩
  · exact ⟨.err .invalidArgument, delivers_raiseInvalidArgument s, fun _ => rfl, fun _ => ⟨rfl, rfl⟩⟩

/-- Settles O39: the two states have the same buffer and the same earlier responses. -/
theorem workingWordsAreNeverReadBeforeWritten : Obligations.WorkingWordsAreNeverReadBeforeWritten :=
  fun i s w d => visible_exec_congr i { s with v := w, draws := d } s rfl rfl

/-- Settles O41: a well-formed command gets `commandResponse` on both states, any other record the decoder's refusal. -/
theorem answerDependsOnTheCommandAlone : Obligations.AnswerDependsOnTheCommandAlone := by
  intro s₁ s₂ c rest₁ rest₂ hr₁ hr₂ hp₁ hp₂
  refine ⟨fun hw => ?_, fun hw => ?_⟩
  · obtain ⟨t₁, r, ht₁, hc₁, hdel₁, -⟩ := step_delivers_commandResponse s₁ c rest₁ hr₁ hp₁ hw
    obtain ⟨t₂, r₂, ht₂, hc₂, hdel₂, -⟩ := step_delivers_commandResponse s₂ c rest₂ hr₂ hp₂ hw
    obtain rfl : r = r₂ := Option.some.inj (hc₁.symm.trans hc₂)
    exact ⟨t₁, t₂, r, ht₁, ht₂, hdel₁, hdel₂⟩
  · cases hd : decode c with
    | ok i => simp [(exists_decode_eq_ok_iff c).mp ⟨i, hd⟩] at hw
    | error e =>
      exact ⟨refusalOf e, step_of_decode_error s₁ c rest₁ e hr₁ hp₁ hd, step_of_decode_error s₂ c rest₂ e hr₂ hp₂ hd⟩

end Sys2Proof.Machine
end

section
/-! The message buffer along an operation and a step, and the little-endian value of a byte string. -/

namespace Sys2Proof.Machine

/-! The buffer along an operation and a step -/

/-- No operation touches the buffer. -/
theorem exec_buf (i : Instr) (s t : State) (h : exec i s = .next t) : t.buf = s.buf := by
  rcases exec_cases i s t h with ⟨x, rfl⟩ | ⟨rfl, -⟩
  · exact retire_buf _ s
  · exact raiseInvalidArgument_buf s

/-- A step leaves the buffer alone or lays out a byte string from address 0; under reset the empty one. -/
theorem step_buf (s t : State) (h : step s = .next t) : t.buf = s.buf ∨ ∃ data, t.buf = bufferOf data := by
  rcases step_cases s with ⟨-, e⟩ | ⟨-, -, e⟩ | ⟨c, rest, i, -, -, -, e⟩ | ⟨c, rest, r, -, -, -, e⟩ <;> rw [e] at h
  · cases h
    exact .inr ⟨[], applyReset_buf s⟩
  · cases h
    exact .inl rfl
  · exact .inr ⟨c.data, exec_buf i _ t h⟩
  · cases h

theorem State.Inv.congr_buf {s t : State} (hs : s.Inv) (h : t.buf = s.buf) : t.Inv := by
  unfold State.Inv
  rw [h]
  exact hs

theorem State.inv_of_buf_eq_bufferOf {s : State} (data : List Byte) (h : s.buf = bufferOf data) : s.Inv := by
  refine ⟨h ▸ bufferOf_wf data, ?_⟩
  rw [h, bufferOf_addresses, bufferOf_length]

/-- A well-formed instruction on the buffer of its own message does not fault. -/
theorem exec_ne_fault (i : Instr) (data : List Byte) (s : State) (f : Fault) (hb : s.buf = bufferOf data)
    (hw : i.wellFormed data = true) : exec i s ≠ .fault f := by
  obtain ⟨t, ht, -⟩ := exec_delivers_responseOf i data s hb hw
  simp [ht]

/-- An operation with no message retires, on every state, with one response that its operands alone fix. -/
theorem exec_of_messageLength_eq_none (i : Instr) (h : i.messageLength = none) :
    ∃ r, ∀ s, exec i s = .next (retire r s) := by
  cases i with
  | siphash | sipmod => cases h
  | siphash32 | siphash64 | siphash32k256 | siphash64k256 => exact ⟨_, hashBlocks_eq _ _ _⟩

/-! Little-endian values -/

theorem leValue_nil : leValue [] = 0 := rfl

theorem leValue_append (xs ys : List Byte) : leValue (xs ++ ys) = leValue xs + 256 ^ xs.length * leValue ys := by
  induction xs with
  | nil => simp [leValue]
  | cons x rest ih =>
    simp only [List.cons_append, leValue, ih, List.length_cons, pow_succ]
    ring

theorem pow_256_eq (n : Nat) : 256 ^ n = 2 ^ (8 * n) := (pow_mul 2 8 n).symm

theorem leValue_take_succ (data : List Byte) (n : Nat) :
    leValue (data.take (n + 1)) = leValue (data.take n) + (data.getD n 0#8).toNat * 2 ^ (8 * n) := by
  rcases Nat.lt_or_ge n data.length with h | h
  · rw [← List.take_concat_get' data n h, leValue_append, List.length_take_of_le h.le]
    simp [leValue, h, pow_256_eq, Nat.mul_comm]
  · rw [List.take_of_length_le h, List.take_of_length_le (by omega)]
    simp [h]

/-- The value of the first `n` bytes as a sum; a byte past the end counts as zero. -/
theorem leValue_take_eq_sum (data : List Byte) (n : Nat) :
    leValue (data.take n) = ((List.range n).map fun j => (data.getD j 0#8).toNat * 2 ^ (8 * j)).sum := by
  induction n with
  | zero => rfl
  | succ n ih => simp [leValue_take_succ, ih, List.range_succ]

theorem leValue_take (data : List Byte) (n : Nat) : leValue (data.take n) = leValue data % 256 ^ n := by
  rcases Nat.lt_or_ge n data.length with h | h
  · have hlt := leValue_lt (data.take n)
    have happ := leValue_append (data.take n) (data.drop n)
    rw [List.length_take_of_le h.le] at hlt happ
    rw [List.take_append_drop] at happ
    rw [happ, Nat.add_mul_mod_self_left, Nat.mod_eq_of_lt hlt]
  · rw [List.take_of_length_le h, Nat.mod_eq_of_lt]
    exact (leValue_lt data).trans_le (Nat.pow_le_pow_right (by omega) h)

theorem leValue_drop (data : List Byte) (n : Nat) : leValue (data.drop n) = leValue data / 256 ^ n := by
  induction n generalizing data with
  | zero => simp
  | succ n ih =>
    cases data with
    | nil => simp [leValue]
    | cons b rest =>
      have hb : b.toNat < 256 := b.isLt
      rw [List.drop_succ_cons, ih, leValue, pow_succ', ← Nat.div_div_eq_div_mul]
      congr 1
      omega

/-- One byte more at the low end: the rest moves up by eight bits. -/
theorem ofNat_leValue_cons (b : Byte) (rest : List Byte) :
    BitVec.ofNat 64 (leValue (b :: rest)) = b.setWidth 64 ||| BitVec.ofNat 64 (leValue rest) <<< 8 := by
  have hb : b.toNat < 2 ^ 8 := b.isLt
  refine BitVec.eq_of_toNat_eq ?_
  have e : (leValue rest % 2 ^ 64) <<< 8 % 2 ^ 64 = (leValue rest % 2 ^ 56) <<< 8 := by
    simp only [Nat.shiftLeft_eq]
    omega
  rw [leValue, BitVec.toNat_or, BitVec.toNat_shiftLeft, BitVec.toNat_setWidth, BitVec.toNat_ofNat, BitVec.toNat_ofNat, e,
    Nat.mod_eq_of_lt (a := b.toNat) (by omega), Nat.or_comm, ← Nat.shiftLeft_add_eq_or_of_lt hb, Nat.shiftLeft_eq]
  omega

/-! Reads -/

/-- A read of at least one byte that leaves the buffer faults at the first of its addresses that does not exist. -/
theorem memRead_bufferOf_outside (data : List Byte) (addr n : Nat) (hn : 0 < n) (h : data.length < addr + n) :
    memRead (bufferOf data) addr n = .error (.outOfBuffer (max addr data.length)) := by
  induction n generalizing addr with
  | zero => omega
  | succ n ih =>
    rcases Nat.lt_or_ge addr data.length with hlt | hge
    · simp [memRead, readByte_bufferOf, hlt, hlt.le, ih (addr + 1) (by omega) (by omega)]
    · simp [memRead, readByte_bufferOf, hge]

/-- Bytes `k` to `k+n-1` of a key string stand at bits `8k+8n-1 : 8k` of the key field. -/
theorem keyString_extractLsb'_toNat (bytes : List Byte) (h : bytes.length ≤ 32) (k n : Nat) :
    ((keyString bytes).extractLsb' (8 * k) (8 * n)).toNat = leValue ((bytes.drop k).take n) := by
  have hlt : leValue bytes < 2 ^ 256 :=
    (leValue_lt bytes).trans_le (Nat.pow_le_pow_right (n := 256) (by omega) h)
  rw [keyString, BitVec.extractLsb'_toNat, BitVec.toNat_ofNat, Nat.mod_eq_of_lt hlt, Nat.shiftRight_eq_div_pow,
    leValue_take, leValue_drop, pow_256_eq, pow_256_eq]

end Sys2Proof.Machine
end

section
/-! The statements of the message buffer and of little-endian reads. -/

namespace Sys2Proof.Machine

/-- Settles O14: a step leaves the buffer alone or lays out a byte string, and both are canonical. -/
theorem stepKeepsTheBufferCanonical : Obligations.StepKeepsTheBufferCanonical := by
  intro s t hs h
  rcases step_buf s t h with hb | ⟨data, hb⟩
  · exact hs.congr_buf hb
  · exact State.inv_of_buf_eq_bufferOf data hb

/-- Settles O15: the buffer at reset is that of the empty byte string. -/
theorem resetBufferIsCanonical : Obligations.ResetBufferIsCanonical :=
  State.inv_of_buf_eq_bufferOf (s := State.reset) [] rfl

/-- Settles O13: a step that runs an operation runs it on the buffer of its own message, with the right `LEN`. -/
theorem noStepFaults : Obligations.NoStepFaults := by
  intro s f
  rcases step_cases s with ⟨-, e⟩ | ⟨-, -, e⟩ | ⟨c, rest, i, -, -, hd, e⟩ | ⟨c, rest, r, -, -, -, e⟩ <;> rw [e]
  · nofun
  · nofun
  · exact exec_ne_fault i c.data _ f rfl (decode_wellFormed c i hd)
  · nofun

/-- Settles O20: the buffer as a whole is the same. -/
theorem noInstructionWritesMemory : Obligations.NoInstructionWritesMemory := by
  intro i s t h a
  rw [exec_buf i s t h]

/-- Settles O40: the one response of an integer operation is the same on both states. -/
theorem integerOperationsTouchNoMemory : Obligations.IntegerOperationsTouchNoMemory := by
  intro i s b h
  obtain ⟨r, hr⟩ := exec_of_messageLength_eq_none i h
  exact ⟨retire r s, retire r { s with buf := b }, hr s, hr _, rfl⟩

/-- Settles O16: inside the buffer the value read is the little-endian sum; outside, the fault names the first missing address. -/
theorem memReadIsLittleEndian : Obligations.MemReadIsLittleEndian := by
  intro data addr n
  refine ⟨fun h => ?_, fun hn h => ?_⟩
  · obtain ⟨x, hx, hv⟩ := memRead_bufferOf data addr n h
    refine ⟨x, hx, ?_⟩
    simp [hv, leValue_take_eq_sum]
  · exact ⟨max addr data.length, by omega, by omega, by omega, memRead_bufferOf_outside data addr n hn h⟩

/-- Settles O17: the block's value is taken apart byte by byte, lowest first. -/
theorem fullBlocksAreLittleEndian : Obligations.FullBlocksAreLittleEndian := by
  intro data i b0 b1 b2 b3 b4 b5 b6 b7 h
  have hlen : 8 * i + 8 ≤ data.length := by
    have := congrArg List.length h
    simp at this
    omega
  rw [fullBlock_bufferOf data i hlen, blockOf, h]
  simp [ofNat_leValue_cons, leValue_nil, BitVec.shiftLeft_or_distrib, BitVec.or_assoc, ← BitVec.shiftLeft_add]

/-- Settles O8: each clause but the reference key is a slice of whole bytes of the key field. -/
theorem keyStringsAreLittleEndian : Obligations.KeyStringsAreLittleEndian := by
  intro bytes hlen
  have slice := keyString_extractLsb'_toNat bytes (by omega)
  refine ⟨fun b hb => ?_, fun j _ => ?_, by decide, fun h16 => ?_⟩
  · have hv : ((keyString bytes).extractLsb' (8 * b) 8).toNat = bytes[b].toNat := by
      rw [slice b 1, List.drop_eq_getElem_cons hb, List.take_succ_cons, List.take_zero, leValue, leValue]
      rfl
    rw [List.getElem?_eq_getElem hb, BitVec.eq_of_toNat_eq hv]
  · have e : 64 * j = 8 * (8 * j) := by omega
    rw [keyWord, e]
    exact slice (8 * j) 8
  · refine BitVec.eq_of_toNat_eq ((slice 16 16).trans ?_)
    rw [List.drop_of_length_le h16.le]
    rfl

end Sys2Proof.Machine
end

section
/-! The operation-code map as one equation per code, its operand slices as numbers, and what the decoder reads of a record. -/

namespace Sys2Proof

/-! The operand slices -/

theorem keyWord_eq_ofNat (key : Key) (j : Nat) : keyWord key j = BitVec.ofNat 64 (key.toNat / 2 ^ (64 * j)) := by
  rw [keyWord, BitVec.extractLsb', Nat.shiftRight_eq_div_pow]

theorem lowHalf_eq_ofNat (num : Word) : lowHalf num = BitVec.ofNat 32 num.toNat := rfl

/-! The map -/

theorem decodeMessage_of_length_eq (c : Cmd) (i : Instr) (h : c.len = c.data.length) : decodeMessage c i = .ok i :=
  if_pos h

section
variable {c : Cmd}

theorem decode_of_op_zero (h : c.op = 0#3) :
    decode c = decodeMessage c (.siphash (keyWord c.key 0) (keyWord c.key 1) c.len) := by
  simp [decode, h]

theorem decode_of_op_one (h : c.op = 1#3) :
    decode c = .ok (.siphash32 (keyWord c.key 0) (keyWord c.key 1) (lowHalf c.num)) := by
  simp [decode, h]

theorem decode_of_op_two (h : c.op = 2#3) :
    decode c = .ok (.siphash64 (keyWord c.key 0) (keyWord c.key 1) c.num) := by
  simp [decode, h]

theorem decode_of_op_three (h : c.op = 3#3) :
    decode c = .ok (.siphash32k256 (keyWord c.key 0) (keyWord c.key 1) (keyWord c.key 2) (keyWord c.key 3)
      (lowHalf c.num)) := by
  simp [decode, h]

theorem decode_of_op_four (h : c.op = 4#3) :
    decode c = .ok (.siphash64k256 (keyWord c.key 0) (keyWord c.key 1) (keyWord c.key 2) (keyWord c.key 3) c.num) := by
  simp [decode, h]

theorem decode_of_op_five (h : c.op = 5#3) :
    decode c = decodeMessage c (.sipmod (keyWord c.key 0) (keyWord c.key 1) c.len c.m) := by
  simp [decode, h]

theorem decode_of_op_reserved (h : c.op = 6#3 ∨ c.op = 7#3) : decode c = .error (.reservedOp c.op) := by
  rcases h with h | h <;> simp [decode, h]

end

/-! The encoder -/

/-- The decoder inverts the encoder: the key words and the integer are read back from where the record packs them. -/
theorem decode_encode (i : Instr) (data : List Byte) (h : i.wellFormed data = true) : decode (encode i data) = .ok i := by
  cases i with
  | siphash k0 k1 len =>
    have hlen : len = data.length := by simpa [Instr.wellFormed, Instr.messageLength] using h
    rw [decode_of_op_zero rfl, decodeMessage_of_length_eq _ _ hlen]
    simp [encode]
  | siphash32 k0 k1 num =>
    rw [decode_of_op_one rfl]
    simp [encode]
  | siphash64 k0 k1 num =>
    rw [decode_of_op_two rfl]
    simp [encode]
  | siphash32k256 k0 k1 k2 k3 num =>
    rw [decode_of_op_three rfl]
    simp [encode]
  | siphash64k256 k0 k1 k2 k3 num =>
    rw [decode_of_op_four rfl]
    simp [encode]
  | sipmod k0 k1 len m =>
    have hlen : len = data.length := by simpa [Instr.wellFormed, Instr.messageLength] using h
    rw [decode_of_op_five rfl, decodeMessage_of_length_eq _ _ hlen]
    simp [encode]

theorem encode_data (i : Instr) (data : List Byte) (h : i.messageLength ≠ none) : (encode i data).data = data := by
  cases i with
  | siphash | sipmod => rfl
  | siphash32 | siphash64 | siphash32k256 | siphash64k256 => exact absurd rfl h

namespace Machine

/-! The fields an operation reads -/

theorem SameOperands.data_eq {c d : Cmd} (h : SameOperands c d) (hop : c.op = 0#3 ∨ c.op = 5#3) : c.data = d.data := by
  obtain ⟨-, -, -, -, -, -, hmsg, -⟩ := h
  exact (hmsg hop).2

/-- The decoder reads nothing but the operands of the record's operation. -/
theorem SameOperands.decode_eq {c d : Cmd} (h : SameOperands c d) : decode c = decode d := by
  obtain ⟨hop, h0, h1, h23, hlow, hnum, hmsg, hm⟩ := h
  rcases op_cases c.op with e | e | e | e | e | e | e | e
  · obtain ⟨hlen, hdata⟩ := hmsg (.inl e)
    simp only [decode_of_op_zero e, decode_of_op_zero (hop ▸ e), decodeMessage, h0, h1, hlen, hdata]
  · rw [decode_of_op_one e, decode_of_op_one (hop ▸ e), h0, h1, hlow (.inl e)]
  · rw [decode_of_op_two e, decode_of_op_two (hop ▸ e), h0, h1, hnum (.inl e)]
  · obtain ⟨h2, h3⟩ := h23 (.inl e)
    rw [decode_of_op_three e, decode_of_op_three (hop ▸ e), h0, h1, h2, h3, hlow (.inr e)]
  · obtain ⟨h2, h3⟩ := h23 (.inr e)
    rw [decode_of_op_four e, decode_of_op_four (hop ▸ e), h0, h1, h2, h3, hnum (.inr e)]
  · obtain ⟨hlen, hdata⟩ := hmsg (.inr e)
    simp only [decode_of_op_five e, decode_of_op_five (hop ▸ e), decodeMessage, h0, h1, hlen, hdata, hm e]
  · rw [decode_of_op_reserved (.inl e), decode_of_op_reserved (.inl (hop ▸ e)), hop]
  · rw [decode_of_op_reserved (.inr e), decode_of_op_reserved (.inr (hop ▸ e)), hop]

/-- Only the codes 0 and 5 spell an operation with a message. -/
theorem op_of_decode_messageLength {c : Cmd} {i : Instr} (hd : decode c = .ok i) (hi : i.messageLength ≠ none) :
    c.op = 0#3 ∨ c.op = 5#3 := by
  have integer {j : Instr} (hj : decode c = .ok j) (hn : j.messageLength = none) : False := by
    cases hj.symm.trans hd
    exact hi hn
  rcases op_cases c.op with e | e | e | e | e | e | e | e
  · exact .inl e
  · exact (integer (decode_of_op_one e) rfl).elim
  · exact (integer (decode_of_op_two e) rfl).elim
  · exact (integer (decode_of_op_three e) rfl).elim
  · exact (integer (decode_of_op_four e) rfl).elim
  · exact .inr e
  · cases (decode_of_op_reserved (.inl e)).symm.trans hd
  · cases (decode_of_op_reserved (.inr e)).symm.trans hd

/-- What the host sees of a step on two states that agree on the reset input and the earlier responses, when their oldest
records decode alike and, if the operation has a message, carry the same one. -/
theorem visible_step_congr {s t : State} {c d : Cmd} {restC restD : List Cmd} (hs : s.pending = c :: restC)
    (ht : t.pending = d :: restD) (hreset : s.resetLine = t.resetLine) (hresp : s.responses = t.responses)
    (hdec : decode c = decode d) (hdata : ∀ i, decode c = .ok i → i.messageLength ≠ none → c.data = d.data) :
    visible (step s) = visible (step t) := by
  cases hr : s.resetLine with
  | true => simp [step, hr, ← hreset, visible, hresp]
  | false =>
    have hr' : t.resetLine = false := hreset ▸ hr
    cases hc : decode c with
    | error e => rw [step_of_decode_error s c restC e hr hs hc, step_of_decode_error t d restD e hr' ht (hdec ▸ hc)]
    | ok i =>
      rw [step_of_decode_ok s c restC i hr hs hc, step_of_decode_ok t d restD i hr' ht (hdec ▸ hc)]
      by_cases hi : i.messageLength = none
      · obtain ⟨r, he⟩ := exec_of_messageLength_eq_none i hi
        simp [he, visible, hresp]
      · exact visible_exec_congr i _ _ (congrArg bufferOf (hdata i hc hi)) hresp

end Machine
end Sys2Proof
end

section
/-! The statements of the encoding: the decoder, the step on a decoded record, and the wire form of a response. -/

namespace Sys2Proof.Machine

/-- Settles O1: the decoder reads every operand back from where the encoder put it. -/
theorem decodeInvertsEncode : Obligations.DecodeInvertsEncode :=
  fun i data h => ⟨decode_encode i data h, encode_data i data⟩

/-- Settles O2: the equation of each code, its slices written as quotients of the field's number. -/
theorem decodeFollowsTheCodeMap : Obligations.DecodeFollowsTheCodeMap := by
  intro c
  refine ⟨fun h hlen => ?_, fun h => ?_, fun h => ?_, fun h => ?_, fun h => ?_, fun h hlen => ?_, fun h i => ?_⟩
  · simp [decode_of_op_zero h, decodeMessage_of_length_eq c _ hlen, keyWord_eq_ofNat]
  · simp [decode_of_op_one h, keyWord_eq_ofNat, lowHalf_eq_ofNat]
  · simp [decode_of_op_two h, keyWord_eq_ofNat]
  · simp [decode_of_op_three h, keyWord_eq_ofNat, lowHalf_eq_ofNat]
  · simp [decode_of_op_four h, keyWord_eq_ofNat]
  · simp [decode_of_op_five h, decodeMessage_of_length_eq c _ hlen, keyWord_eq_ofNat]
  · rw [decode_of_op_reserved h]
    nofun

/-- Settles O3: the acceptance lemma of the decoder. -/
theorem decodeAcceptsExactlyTheCommands : Obligations.DecodeAcceptsExactlyTheCommands :=
  exists_decode_eq_ok_iff

/-- Settles O6: the two records decode alike, and only an operation that reads the buffer depends on `DATA`. -/
theorem unreadFieldsAreIgnored : Obligations.UnreadFieldsAreIgnored := by
  intro s c d rest h
  refine ⟨h.decode_eq, visible_step_congr rfl rfl rfl rfl h.decode_eq fun i hd hi => ?_⟩
  exact h.data_eq (op_of_decode_messageLength hd hi)

/-- Settles O4: the decoder rejects the record, and the step refuses with the decoder's reason. -/
theorem reservedCodesAreRefused : Obligations.ReservedCodesAreRefused := fun s c rest hr hp hop =>
  ⟨decode_of_op_reserved hop, step_of_decode_error s c rest _ hr hp (decode_of_op_reserved hop)⟩

/-- Settles O9: what decodes is well formed, and the step is its `exec`. -/
theorem stepRunsTheDecodedInstruction : Obligations.StepRunsTheDecodedInstruction := fun s c rest i hr hp hd =>
  ⟨decode_wellFormed c i hd, step_of_decode_ok s c rest i hr hp hd⟩

/-- Settles O38: `lowHalf` gives a zero-extended `u32` back, and the bits above it are zero. -/
theorem responseWireFormat : Obligations.ResponseWireFormat := by
  refine ⟨fun x => ⟨rfl, rfl⟩, fun x => ⟨rfl, x.setWidth 64, rfl, lowHalf_setWidth x, ?_⟩, rfl, rfl⟩
  refine BitVec.eq_of_getLsbD_eq fun i _ => ?_
  simp

end Sys2Proof.Machine
end

section
/-! The datapath's functions as facts about bits and numbers: rotation, SipRound and its inverse, narrowing and reduction; and the
bytes of the final block and of integer messages. -/

namespace Sys2Proof.Machine

/-! Rotation -/

/-- A bit that stays below bit 64 is moved by the left shift of `rotl64`, one that passes it by the right shift. -/
theorem rotl64_getLsbD (a : Word) {n j : Nat} (h1 : 1 ≤ n) (h63 : n ≤ 63) (hj : j < 64) :
    (rotl64 a n).getLsbD ((j + n) % 64) = a.getLsbD j := by
  rw [rotl64, BitVec.getLsbD_or, BitVec.getLsbD_shiftLeft, BitVec.getLsbD_ushiftRight]
  rcases Nat.lt_or_ge (j + n) 64 with hlt | hge
  · have hhigh : a.getLsbD (64 - n + (j + n)) = false := BitVec.getLsbD_of_ge _ _ (by omega)
    simp [Nat.mod_eq_of_lt hlt, hlt, hhigh]
  · have hmod : (j + n) % 64 = j + n - 64 := by omega
    have hlow : j + n - 64 < n := by omega
    have hidx : 64 - n + (j + n - 64) = j := by omega
    simp [hmod, hlow, hidx]

/-- Two rotations that together go once round give the word back. -/
@[simp] theorem rotl64_rotl64 (a : Word) {n m : Nat} (hn : 1 ≤ n) (hm : 1 ≤ m) (h : n + m = 64) :
    rotl64 (rotl64 a n) m = a := by
  refine BitVec.eq_of_getLsbD_eq fun j hj => ?_
  have hround : ((j + n) % 64 + m) % 64 = j := by omega
  calc (rotl64 (rotl64 a n) m).getLsbD j
    _ = (rotl64 (rotl64 a n) m).getLsbD (((j + n) % 64 + m) % 64) := by rw [hround]
    _ = (rotl64 a n).getLsbD ((j + n) % 64) := rotl64_getLsbD _ hm (by omega) (Nat.mod_lt _ (by omega))
    _ = a.getLsbD j := rotl64_getLsbD a hn (by omega) hj

/-! SipRound -/

/-- The steps of R63 undone, last first: a subtraction for each addition, the same exclusive-or again, and the rotation
that completes each rotation. -/
def sipRoundInv (v : Words) : Words :=
  let v2 := rotl64 v.v2 32
  let v1 := rotl64 (v.v1 ^^^ v2) 47
  let v2 := v2 - v1
  let v3 := rotl64 (v.v3 ^^^ v.v0) 43
  let v0 := v.v0 - v3
  let v3 := rotl64 (v3 ^^^ v2) 48
  let v2 := v2 - v3
  let v0 := rotl64 v0 32
  let v1 := rotl64 (v1 ^^^ v0) 51
  ⟨v0 - v1, v1, v2, v3⟩

theorem sipRoundInv_sipRound : Function.LeftInverse sipRoundInv sipRound := by
  intro v
  simp [sipRoundInv, sipRound]

theorem sipRound_sipRoundInv : Function.RightInverse sipRoundInv sipRound := by
  intro v
  simp [sipRoundInv, sipRound]

/-! Narrowing and reduction -/

theorem extractLsb'_low_toNat (h : Word) : (h.extractLsb' 0 32).toNat = h.toNat % 2 ^ 32 := by
  rw [BitVec.extractLsb'_toNat, Nat.shiftRight_zero]

theorem extractLsb'_high_toNat (h : Word) : (h.extractLsb' 32 32).toNat = h.toNat / 2 ^ 32 := by
  have hlt : h.toNat < 2 ^ 64 := h.isLt
  rw [BitVec.extractLsb'_toNat, Nat.shiftRight_eq_div_pow]
  omega

/-- The product of two words fits in 128 bits, so its high half is the quotient by `2 ^ 64`. -/
theorem reduce_toNat (h m : Word) : (reduce h m).toNat = h.toNat * m.toNat / 2 ^ 64 := by
  have hprod : h.toNat * m.toNat < 2 ^ 64 * 2 ^ 64 := Nat.mul_lt_mul'' h.isLt m.isLt
  rw [reduce, BitVec.extractLsb'_toNat, BitVec.toNat_mul, BitVec.toNat_setWidth_of_le (by omega),
    BitVec.toNat_setWidth_of_le (by omega), Nat.shiftRight_eq_div_pow]
  omega

theorem reduce_lt (h m : Word) (hm : m ≠ 0#64) : (reduce h m).toNat < m.toNat := by
  have hpos : 0 < m.toNat := BitVec.toNat_pos_of_ne_zero hm
  rw [reduce_toNat]
  exact Nat.div_lt_of_lt_mul (Nat.mul_lt_mul_of_pos_right h.isLt hpos)

theorem reduce_mono {g h : Word} (m : Word) (hgh : g.toNat ≤ h.toNat) : (reduce g m).toNat ≤ (reduce h m).toNat := by
  rw [reduce_toNat, reduce_toNat]
  exact Nat.div_le_div_right (Nat.mul_le_mul_right _ hgh)

@[simp] theorem reduce_zero_left (m : Word) : reduce 0#64 m = 0#64 := by
  refine BitVec.eq_of_toNat_eq ?_
  simp [reduce_toNat]

theorem reduce_one (h : Word) : reduce h 1#64 = 0#64 :=
  BitVec.eq_of_toNat_eq (Nat.lt_one_iff.mp (reduce_lt h 1#64 (by decide)))

theorem reduce_two_pow (h : Word) {k : Nat} (hk : k ≤ 63) : reduce h (BitVec.ofNat 64 (2 ^ k)) = h >>> (64 - k) := by
  have hpow : 2 ^ 64 = 2 ^ (64 - k) * 2 ^ k := by rw [← pow_add, Nat.sub_add_cancel (by omega)]
  have hlt : 2 ^ k < 2 ^ 64 := Nat.pow_lt_pow_right (by omega) (by omega)
  refine BitVec.eq_of_toNat_eq ?_
  rw [reduce_toNat, BitVec.toNat_ofNat, Nat.mod_eq_of_lt hlt, BitVec.toNat_ushiftRight, Nat.shiftRight_eq_div_pow, hpow,
    Nat.mul_div_mul_right _ _ (by positivity)]

theorem reduce_two (h : Word) : reduce h 2#64 = if h.getLsbD 63 then 1#64 else 0#64 := by
  have hshift : reduce h 2#64 = h >>> 63 := reduce_two_pow h (k := 1) (by omega)
  rw [hshift]
  refine BitVec.eq_of_getLsbD_eq fun j hj => ?_
  rw [BitVec.getLsbD_ushiftRight]
  cases j with
  | zero => cases h.getLsbD 63 <;> rfl
  | succ j =>
    have hhigh : h.getLsbD (63 + (j + 1)) = false := BitVec.getLsbD_of_ge _ _ (by omega)
    rw [hhigh]
    split <;> simp

theorem reduce_allOnes (h : Word) : reduce h 0xffffffffffffffff#64 = if h = 0#64 then 0#64 else h - 1#64 := by
  split
  · next hz => rw [hz, reduce_zero_left]
  · next hz =>
    have hle : 1#64 ≤ h := BitVec.le_def.mpr (BitVec.toNat_pos_of_ne_zero hz)
    have hlt : h.toNat < 2 ^ 64 := h.isLt
    refine BitVec.eq_of_toNat_eq ?_
    calc (reduce h 0xffffffffffffffff#64).toNat
      _ = h.toNat * (2 ^ 64 - 1) / 2 ^ 64 := reduce_toNat h _
      _ = h.toNat - 1 := by omega
      _ = (h - 1#64).toNat := (BitVec.toNat_sub_of_le hle).symm

/-! The key schedules -/

theorem k256Init_repeated (k0 k1 : Word) : k256Init k0 k1 k0 k1 = init128 k0 k1 := rfl

/-! The bytes of the final block -/

theorem leValue_byte (data : List Byte) (j : Nat) : leValue data / 256 ^ j % 256 = (data.getD j 0#8).toNat := by
  have hbyte := leValue_take_succ (data.drop j) 0
  rw [leValue_take, leValue_drop] at hbyte
  simpa [leValue_nil] using hbyte

theorem lastBlockOf_toNat (data : List Byte) :
    (lastBlockOf data).toNat = leValue (data.drop (8 * (data.length / 8))) + 2 ^ 56 * (data.length % 256) := by
  have htail := leValue_tail_lt data
  rw [lastBlockOf, BitVec.toNat_ofNat]
  omega

/-- Below byte 7 the final block holds the tail, and zero past its end. -/
theorem lastBlockOf_tail_byte (data : List Byte) {j : Nat} (hj : j < 7) :
    (lastBlockOf data).extractLsb' (8 * j) 8 = data.getD (8 * (data.length / 8) + j) 0#8 := by
  have hpow : 2 ^ 56 = 256 ^ j * (256 * 256 ^ (6 - j)) := by
    rw [← pow_succ', ← pow_add, show j + (6 - j + 1) = 7 by omega]
    rfl
  refine BitVec.eq_of_toNat_eq ?_
  rw [BitVec.extractLsb'_toNat, lastBlockOf_toNat, Nat.shiftRight_eq_div_pow, ← pow_256_eq, hpow, Nat.mul_assoc,
    Nat.add_mul_div_left _ _ (by positivity), Nat.mul_assoc, Nat.add_mul_mod_self_left, leValue_byte]
  simp

theorem lastBlockOf_length_byte (data : List Byte) :
    (lastBlockOf data).extractLsb' 56 8 = BitVec.ofNat 8 (data.length % 256) := by
  have htail := leValue_tail_lt data
  refine BitVec.eq_of_toNat_eq ?_
  rw [BitVec.extractLsb'_toNat, lastBlockOf_toNat, Nat.shiftRight_eq_div_pow, BitVec.toNat_ofNat]
  omega

/-! The bytes and blocks of integer messages -/

theorem leBytes_getElem? (n : Word) {w j : Nat} (hj : j < w) : (leBytes n w)[j]? = some (n.extractLsb' (8 * j) 8) := by
  induction w generalizing n j with
  | zero => omega
  | succ w ih =>
    cases j with
    | zero => rfl
    | succ j =>
      have hshift : (n >>> 8).extractLsb' (8 * j) 8 = n.extractLsb' (8 * (j + 1)) 8 := by
        refine BitVec.eq_of_getLsbD_eq fun i hi => ?_
        simp [Nat.mul_succ, Nat.add_left_comm, Nat.add_comm]
      rw [leBytes, List.getElem?_cons_succ, ih _ (by omega), hshift]

/-- A byte of a 32-bit integer is that byte of its zero extension. -/
theorem extractLsb'_setWidth_half (num : Half) {j : Nat} (hj : j < 4) :
    (num.setWidth 64).extractLsb' (8 * j) 8 = num.extractLsb' (8 * j) 8 := by
  refine BitVec.eq_of_getLsbD_eq fun i hi => ?_
  have hlt : 8 * j + i < 64 := by omega
  simp [hlt]

theorem fullBlock_leBytes8 (num : Word) : fullBlock (bufferOf (leBytes num 8)) 0 = .ok num := by
  have hblocks := blocksOf_leBytes8 num
  simp only [blocksOf, leBytes_length] at hblocks
  obtain ⟨hfirst, -⟩ := List.cons.inj hblocks
  rw [fullBlock_bufferOf _ 0 (by simp), hfirst]

/-- The final block is the last of the blocks. -/
theorem finalBlock_of_blocksOf {data : List Byte} {blocks : List Word} {m : Word}
    (h : blocksOf data = blocks ++ [m]) : finalBlock (bufferOf data) data.length = .ok m := by
  rw [finalBlock_bufferOf, List.singleton_inj.mp (List.append_inj_right' h rfl)]

theorem finalBlock_leBytes8 (num : Word) : finalBlock (bufferOf (leBytes num 8)) 8 = .ok lengthBlock64 := by
  have h := finalBlock_of_blocksOf (blocks := [num]) (blocksOf_leBytes8 num)
  rwa [leBytes_length] at h

theorem finalBlock_leBytes4 (num : Half) :
    finalBlock (bufferOf (leBytes (num.setWidth 64) 4)) 4 = .ok (intBlock32 num) := by
  have h := finalBlock_of_blocksOf (blocks := []) (blocksOf_leBytes4 num)
  rwa [leBytes_length] at h

end Sys2Proof.Machine
end

section
/-! The statements of the datapath: blocks, SipRound, rotation, narrowing, reduction and the repeated key. -/

namespace Sys2Proof.Machine

/-- Settles O18: the final block is `lastBlockOf`; its tail bytes read past the end of the message as zero. -/
theorem finalBlockLayout : Obligations.FinalBlockLayout := by
  refine fun data => ⟨lastBlockOf data, finalBlock_bufferOf data, fun j hj => ?_⟩
  split
  · exact lastBlockOf_tail_byte data (by omega)
  split
  · next hge hlt =>
    have hpast : data.length ≤ 8 * (data.length / 8) + j := by omega
    rw [lastBlockOf_tail_byte data hlt, List.getD_eq_default _ _ hpast]
  · next hge =>
    obtain rfl : j = 7 := by omega
    exact lastBlockOf_length_byte data

/-- Settles O19: the bytes by induction on the width, the blocks from the block lists of the two integer messages. -/
theorem integerBlockSequences : Obligations.IntegerBlockSequences := by
  refine ⟨fun num => ⟨fun j hj => leBytes_getElem? num hj, rfl, fullBlock_leBytes8 num, finalBlock_leBytes8 num⟩,
    fun num => ⟨fun j hj => ?_, rfl, finalBlock_leBytes4 num⟩⟩
  rw [leBytes_getElem? _ hj, extractLsb'_setWidth_half num hj]

/-- Settles O21: `sipRoundInv` undoes the round on both sides. -/
theorem sipRoundIsABijection : Obligations.SipRoundIsABijection :=
  ⟨sipRoundInv_sipRound.injective, sipRound_sipRoundInv.surjective⟩

/-- Settles O23: the bit is moved by one of the two shifts. -/
theorem rotationMovesEveryBit : Obligations.RotationMovesEveryBit :=
  fun a _ _ h1 h63 hj => rotl64_getLsbD a h1 h63 hj

/-- Settles O25: every clause but the sample follows from the quotient, `reduce_toNat`. -/
theorem reduceIsTheHighHalf : Obligations.ReduceIsTheHighHalf :=
  ⟨reduce_toNat, reduce_lt, reduce_one, reduce_two, fun h _ _ hk => reduce_two_pow h hk, reduce_allOnes, reduce_zero_left,
    fun _ _ m hgh => reduce_mono m hgh, by decide⟩

/-- Settles O24: the two halves of the digest as remainder and quotient by `2 ^ 32`. -/
theorem narrowingIsOneOfTwo : Obligations.NarrowingIsOneOfTwo := by
  refine ⟨fun h => ⟨extractLsb'_low_toNat h, ?_⟩, fun mode => ?_⟩
  · rw [narrow32, BitVec.toNat_xor, extractLsb'_high_toNat, extractLsb'_low_toNat]
  · cases mode with
    | truncLow => exact .inl rfl
    | xorFold => exact .inr rfl

/-- Settles O36: the operations of a pair differ in the key schedule alone, and the schedules agree on a repeated key. -/
theorem repeatedKeyGivesTheStandardOperations : Obligations.RepeatedKeyGivesTheStandardOperations := by
  refine ⟨k256Init_repeated, fun s k0 k1 num => ?_, fun s k0 k1 num => ?_⟩
  · simp only [exec, execSiphash64k256, execSiphash64, k256Init_repeated]
  · simp only [exec, execSiphash32k256, execSiphash32, k256Init_repeated]

end Sys2Proof.Machine
end

section
/-! SIPHASH on the buffer of a message (spec/41_siphash.md). -/

namespace Sys2Proof.Machine

/-- SIPHASH on the buffer of a message retires with the digest of the message. -/
theorem exec_siphash_bufferOf (k0 k1 : Word) (data : List Byte) (s : State) (hb : s.buf = bufferOf data) :
    exec (.siphash k0 k1 data.length) s = .next (retire (okWord (messageDigest (init128 k0 k1) data)) s) :=
  hashBuffer_bufferOf data (init128 k0 k1) okWord s hb

/-- Settles O26: SIPHASH retires, and to retire is to deliver one response and leave unspecified working words. -/
theorem siphashRespondsWithTheDigest : Obligations.SiphashRespondsWithTheDigest := fun s k0 k1 data hb =>
  ⟨_, exec_siphash_bufferOf k0 k1 data s hb, delivers_retire _ s⟩

end Sys2Proof.Machine
end

section
/-! Integer messages: the digest of the bytes is the digest of the blocks, so hashing the blocks answers the digest of the bytes. -/

namespace Sys2Proof.Machine

/-! From any initial words (R72) -/

theorem messageDigest_leBytes4 (w : Words) (num : Half) :
    messageDigest w (leBytes (num.setWidth 64) 4) = digestOf w [intBlock32 num] := by
  rw [messageDigest, blocksOf_leBytes4]

theorem messageDigest_leBytes8 (w : Words) (num : Word) :
    messageDigest w (leBytes num 8) = digestOf w [num, lengthBlock64] := by
  rw [messageDigest, blocksOf_leBytes8]

theorem hashBlocks_intBlock32 (w : Words) (num : Half) (finish : Word → Response) (s : State) :
    hashBlocks w [intBlock32 num] finish s =
      .next (retire (finish (messageDigest w (leBytes (num.setWidth 64) 4))) s) := by
  rw [hashBlocks_eq, messageDigest_leBytes4]

theorem hashBlocks_lengthBlock64 (w : Words) (num : Word) (finish : Word → Response) (s : State) :
    hashBlocks w [num, lengthBlock64] finish s = .next (retire (finish (messageDigest w (leBytes num 8))) s) := by
  rw [hashBlocks_eq, messageDigest_leBytes8]

/-! The standard-key operations -/

theorem exec_siphash32 (k0 k1 : Word) (num : Half) (s : State) :
    exec (.siphash32 k0 k1 num) s =
      .next (retire (okNarrowed (messageDigest (init128 k0 k1) (leBytes (num.setWidth 64) 4))) s) :=
  hashBlocks_intBlock32 (init128 k0 k1) num okNarrowed s

theorem exec_siphash64 (k0 k1 num : Word) (s : State) :
    exec (.siphash64 k0 k1 num) s = .next (retire (okWord (messageDigest (init128 k0 k1) (leBytes num 8))) s) :=
  hashBlocks_lengthBlock64 (init128 k0 k1) num okWord s

/-- SIPHASH on the buffer of a `w`-byte integer (R84, R86). -/
theorem exec_siphash_leBytes (k0 k1 num : Word) (w : Nat) (s : State) (hb : s.buf = bufferOf (leBytes num w)) :
    exec (.siphash k0 k1 w) s = .next (retire (okWord (messageDigest (init128 k0 k1) (leBytes num w))) s) := by
  have h := exec_siphash_bufferOf k0 k1 (leBytes num w) s hb
  rwa [leBytes_length] at h

/-! The sample: the integer `0x03020100` at its two widths, under the reference key (R60) -/

/-- The published vector of the message 00 01 02 03 (R83). -/
theorem messageDigest_sample4 :
    messageDigest (init128 0x0706050403020100#64 0x0f0e0d0c0b0a0908#64) (leBytes ((0x03020100#32).setWidth 64) 4) =
      0xcf2794e0277187b7#64 := by
  decide

theorem messageDigest_sample8 :
    messageDigest (init128 0x0706050403020100#64 0x0f0e0d0c0b0a0908#64) (leBytes ((0x03020100#32).setWidth 64) 8) =
      0xf5d2e10c8f19ac68#64 := by
  decide

end Sys2Proof.Machine
end

section
/-! The statements of SIPHASH32 and SIPHASH64 (spec/42_siphash_int.md). -/

namespace Sys2Proof.Machine

/-- Settles O27: SIPHASH32 retires with the narrowed digest of the integer's bytes, whose one block is `intBlock32`. -/
theorem siphash32RespondsWithTheNarrowedDigest : Obligations.Siphash32RespondsWithTheNarrowedDigest :=
  fun s k0 k1 num =>
    ⟨_, _, exec_siphash32 k0 k1 num s, delivers_retire _ s, messageDigest_leBytes4 (init128 k0 k1) num, rfl⟩

/-- Settles O28: SIPHASH64 retires with the digest of the integer's bytes, whose two blocks are the integer and the length. -/
theorem siphash64RespondsWithTheDigest : Obligations.Siphash64RespondsWithTheDigest :=
  fun s k0 k1 num =>
    ⟨_, _, exec_siphash64 k0 k1 num s, delivers_retire _ s, messageDigest_leBytes8 (init128 k0 k1) num, rfl⟩

/-- Settles O35: both operations retire with what they make of one digest; in the sample the digests of the two widths
differ in their low halves and in the exclusive-or of their halves. -/
theorem integerOperationsAgreeWithSiphash : Obligations.IntegerOperationsAgreeWithSiphash := by
  refine ⟨fun s k0 k1 num hb => ?_, fun s k0 k1 num hb => ?_,
    0x0706050403020100#64, 0x0f0e0d0c0b0a0908#64, 0x03020100#32, fun mode => ?_⟩
  · exact ⟨_, _, _, exec_siphash64 k0 k1 num s, exec_siphash_leBytes k0 k1 num 8 s hb, rfl, rfl⟩
  · exact ⟨_, _, _, exec_siphash32 k0 k1 num s, exec_siphash_leBytes k0 k1 (num.setWidth 64) 4 s hb, rfl, rfl⟩
  · rw [messageDigest_sample4, messageDigest_sample8]
    cases mode with
    | truncLow | xorFold => decide

end Sys2Proof.Machine
end

section
/-! The 256-bit key schedule under `Compress` (R64, R67, R68): absorbing a block is undone by `compressInv`, so no list of blocks
makes two keys meet; and the integer operations of the 256-bit key. -/

namespace Sys2Proof.Machine

/-! The working words after blocks -/

/-- R68 undone, last first: the block out of `v[0]`, the two rounds back, the block out of `v[3]`. -/
def compressInv (v : Words) (m : Word) : Words :=
  let w := sipRoundInv (sipRoundInv ⟨v.v0 ^^^ m, v.v1, v.v2, v.v3⟩)
  ⟨w.v0, w.v1, w.v2, w.v3 ^^^ m⟩

theorem compressInv_compress (m : Word) : Function.LeftInverse (compressInv · m) (compress · m) := by
  intro v
  simp [compressInv, compress, sipRoundInv_sipRound _]

theorem foldl_compress_injective (blocks : List Word) : Function.Injective (blocks.foldl compress) := by
  induction blocks with
  | nil => exact Function.injective_id
  | cons m rest ih => exact ih.comp (compressInv_compress m).injective

theorem k256Init_inj {k0 k1 k2 k3 l0 l1 l2 l3 : Word} :
    k256Init k0 k1 k2 k3 = k256Init l0 l1 l2 l3 ↔ (k0, k1, k2, k3) = (l0, l1, l2, l3) := by
  simp [k256Init]

/-! The operations of the 256-bit key -/

theorem exec_siphash32k256 (k0 k1 k2 k3 : Word) (num : Half) (s : State) :
    exec (.siphash32k256 k0 k1 k2 k3 num) s =
      .next (retire (okNarrowed (messageDigest (k256Init k0 k1 k2 k3) (leBytes (num.setWidth 64) 4))) s) :=
  hashBlocks_intBlock32 (k256Init k0 k1 k2 k3) num okNarrowed s

theorem exec_siphash64k256 (k0 k1 k2 k3 num : Word) (s : State) :
    exec (.siphash64k256 k0 k1 k2 k3 num) s =
      .next (retire (okWord (messageDigest (k256Init k0 k1 k2 k3) (leBytes num 8))) s) :=
  hashBlocks_lengthBlock64 (k256Init k0 k1 k2 k3) num okWord s

end Sys2Proof.Machine
end

section
/-! The statements of the 256-bit key (spec/43_siphash_k256.md). -/

namespace Sys2Proof.Machine

/-- Settles O22: the key schedule keeps different keys apart, and so does absorbing each block. -/
theorem everyKeyWordReachesTheState : Obligations.EveryKeyWordReachesTheState :=
  fun _ _ _ _ _ _ _ _ blocks hne heq => hne (k256Init_inj.mp (foldl_compress_injective blocks heq))

/-- Settles O29: SIPHASH32K256 retires with the narrowed digest of the integer's bytes, whose one block is `intBlock32`. -/
theorem siphash32K256RespondsWithTheNarrowedDigest : Obligations.Siphash32K256RespondsWithTheNarrowedDigest :=
  fun s k0 k1 k2 k3 num =>
    ⟨_, _, exec_siphash32k256 k0 k1 k2 k3 num s, delivers_retire _ s,
      messageDigest_leBytes4 (k256Init k0 k1 k2 k3) num, rfl⟩

/-- Settles O30: SIPHASH64K256 retires with the digest of the integer's bytes, whose two blocks are the integer and the length. -/
theorem siphash64K256RespondsWithTheDigest : Obligations.Siphash64K256RespondsWithTheDigest :=
  fun s k0 k1 k2 k3 num =>
    ⟨_, _, exec_siphash64k256 k0 k1 k2 k3 num s, delivers_retire _ s,
      messageDigest_leBytes8 (k256Init k0 k1 k2 k3) num, rfl⟩

end Sys2Proof.Machine
end

section
/-! SIPMOD (spec/44_sipmod.md): with a zero modulus it raises, with any other it answers the reduction of the digest that
SIPHASH answers. -/

namespace Sys2Proof.Machine

/-! What hashing the buffer answers, whatever is made of the digest -/

theorem hashBuffer_of_sipCore_ok {w : Words} {len : Nat} {s u : State} {d : Word} (hl : s.buf.length = len)
    (hd : sipCore len (setWords w s) = .ok (d, u)) (finish : Word → Response) :
    hashBuffer w len finish s = .next (retire (finish d) s) := by
  have hu : retire (finish d) u = retire (finish d) s := (congrArg (retire _) (sipCore_ok len _ u d hd)).trans rfl
  simp [hashBuffer, hl, hd, hu]

/-- Whether hashing the buffer answers, and with which digest, does not depend on what is made of the digest. -/
theorem hashBuffer_digest_of_next {w : Words} {len : Nat} {finish : Word → Response} {s t : State}
    (ht : hashBuffer w len finish s = .next t) :
    ∃ d, t = retire (finish d) s ∧ ∀ g, hashBuffer w len g s = .next (retire (g d) s) := by
  have hl : s.buf.length = len := by
    by_contra hne
    cases (hashBuffer_of_length_ne w len finish s hne).symm.trans ht
  rcases hashBuffer_cases w len finish s with ⟨d, u, hd, e⟩ | ⟨f, e⟩ | ⟨-, e⟩
  all_goals cases e.symm.trans ht
  exact ⟨d, rfl, hashBuffer_of_sipCore_ok hl hd⟩

/-! The two paths of SIPMOD -/

/-- The check of `m` comes before anything else (R92). -/
theorem exec_sipmod_zero (k0 k1 : Word) (len : Nat) (s : State) :
    exec (.sipmod k0 k1 len 0#64) s = .next (raiseInvalidArgument s) := by
  rw [exec, execSipmod, if_pos rfl]

/-- SIPMOD with a non-zero modulus retires, on the buffer of a message, with the reduced digest of the message. -/
theorem exec_sipmod_bufferOf (k0 k1 m : Word) (data : List Byte) (s : State) (hb : s.buf = bufferOf data)
    (hm : m ≠ 0#64) :
    exec (.sipmod k0 k1 data.length m) s = .next (retire (okReduced m (messageDigest (init128 k0 k1) data)) s) :=
  (exec_sipmod_of_ne_zero k0 k1 m data.length s hm).trans (hashBuffer_bufferOf data (init128 k0 k1) (okReduced m) s hb)

end Sys2Proof.Machine
end

section
/-! The statements of SIPMOD (spec/44_sipmod.md). -/

namespace Sys2Proof.Machine

/-- Settles O31: SIPMOD retires with the reduced digest, which `reduce_lt` bounds, or raises; both deliver one response. -/
theorem sipmodRespondsBelowTheModulus : Obligations.SipmodRespondsBelowTheModulus := by
  refine ⟨fun s k0 k1 m data hb hm => ?_, fun s k0 k1 len => ?_⟩
  · exact ⟨_, _, exec_sipmod_bufferOf k0 k1 m data s hb hm, delivers_retire _ s, rfl, reduce_lt _ m hm⟩
  · exact ⟨_, exec_sipmod_zero k0 k1 len s, delivers_raiseInvalidArgument s⟩

/-- Settles O37: the two operations hash the same buffer from the same initial words, so they retire with what they make of
one digest. -/
theorem sipmodReducesSiphash : Obligations.SipmodReducesSiphash := by
  intro s k0 k1 m len t hm ht
  obtain ⟨d, rfl, hany⟩ := hashBuffer_digest_of_next (finish := okWord) ht
  have hmod : exec (.sipmod k0 k1 len m) s = .next (retire (okReduced m d) s) :=
    (exec_sipmod_of_ne_zero k0 k1 m len s hm).trans (hany (okReduced m))
  exact ⟨_, d, hmod, retire_responses _ s, retire_responses _ s⟩

/-- Settles O32: raising adds the error response and changes no other field. -/
theorem sipmodWithZeroModulusRaises : Obligations.SipmodWithZeroModulusRaises :=
  fun s k0 k1 len => exec_sipmod_zero k0 k1 len s

end Sys2Proof.Machine
end

section
/-! The exception (spec/60_exceptions.md): who raises it, and that nothing of it remains for the next command. -/

namespace Sys2Proof.Machine

/-- With a command issued, what the buffer holds before the step does not matter: the command's own `DATA` replaces it,
and reset empties it. -/
theorem step_buf_irrelevant (s : State) (c : Cmd) (rest : List Cmd) (b : Memory) (hp : s.pending = c :: rest) :
    step { s with buf := b } = step s := by
  rw [step, step, takeCommand_cons s c rest hp, takeCommand_cons { s with buf := b } c rest hp]
  rfl

/-- Settles O33: an operation that answers retires with a value or is SIPMOD with a zero modulus, which raises. -/
theorem onlySipmodWithZeroModulusFails : Obligations.OnlySipmodWithZeroModulusFails := by
  intro i s t h
  constructor
  · intro hresp
    rcases exec_cases i s t h with ⟨x, rfl⟩ | ⟨-, hi⟩
    · simp at hresp
    · exact hi
  · rintro ⟨k0, k1, len, rfl⟩
    cases (exec_sipmod_zero k0 k1 len s).symm.trans h
    exact raiseInvalidArgument_responses s

/-- Settles O44: besides its response the failing command leaves only its buffer, which the next step does not read. -/
theorem errorIsNotSticky : Obligations.ErrorIsNotSticky := by
  intro s c d rest k0 k1 len hr hp hd
  have hraise : step s = .next (raiseInvalidArgument { s with pending := d :: rest, buf := bufferOf c.data }) :=
    (step_of_decode_ok s c (d :: rest) _ hr hp hd).trans (exec_sipmod_zero k0 k1 len _)
  exact ⟨_, hraise, step_buf_irrelevant
    { s with pending := d :: rest, responses := s.responses ++ [.err .invalidArgument] } d rest (bufferOf c.data) rfl⟩

end Sys2Proof.Machine
end

section
/-! Steps without reset and under it, and runs over the issued commands (spec/70_reset_and_hazards.md). -/

namespace Sys2Proof.Machine

/-! One step -/

theorem step_of_resetLine (s : State) (h : s.resetLine = true) : step s = .next (applyReset s) := if_pos h

theorem step_of_pending_nil (s : State) (hr : s.resetLine = false) (hp : s.pending = []) : step s = .next s := by
  simp [step, hr, takeCommand_nil s hp]

/-- With a command issued, a ready state steps to a ready state, the command's own response delivered (R123). -/
theorem State.Ready.step_cons {s : State} (hs : s.Ready) {c : Cmd} {rest : List Cmd} (hp : s.pending = c :: rest) :
    ∃ t r, step s = .next t ∧ t.Ready ∧ t.pending = rest ∧ commandResponse c = some r ∧
      t.responses = s.responses ++ [r] := by
  obtain ⟨hr, hall⟩ := hs
  rw [hp, List.forall_mem_cons] at hall
  obtain ⟨hc, hrest⟩ := hall
  obtain ⟨t, r, ht, hcr, hresp, hpend, -, hline⟩ := step_delivers_commandResponse s c rest hr hp hc
  exact ⟨t, r, ht, ⟨hline.trans hr, hpend ▸ hrest⟩, hpend, hcr, hresp⟩

/-- A ready state steps to a ready state: with no command issued, to itself. -/
theorem State.Ready.exists_step {s : State} (hs : s.Ready) : ∃ t, step s = .next t ∧ t.Ready := by
  cases hp : s.pending with
  | nil => exact ⟨s, step_of_pending_nil s hs.1 hp, hs⟩
  | cons c rest =>
    obtain ⟨t, -, ht, hready, -⟩ := hs.step_cons hp
    exact ⟨t, ht, hready⟩

/-! Runs -/

theorem runSteps_succ {s t : State} (h : step s = .next t) (n : Nat) : runSteps s (n + 1) = runSteps t n := by
  rw [runSteps, h]

/-- A ready state runs to the end of its commands and delivers their responses, one per command in order (R123, R124). -/
theorem State.Ready.run {s : State} (hs : s.Ready) :
    ∃ t rs, runSteps s s.pending.length = .next t ∧ t.pending = [] ∧
      s.pending.map commandResponse = rs.map some ∧ t.responses = s.responses ++ rs := by
  induction hp : s.pending generalizing s with
  | nil => exact ⟨s, [], rfl, hp, rfl, (List.append_nil _).symm⟩
  | cons c rest ih =>
    obtain ⟨u, r, hu, hready, hpend, hcr, hresp⟩ := hs.step_cons hp
    obtain ⟨t, rs, ht, hend, hmap, hrun⟩ := ih hready hpend
    refine ⟨t, r :: rs, (runSteps_succ hu _).trans ht, hend, ?_, ?_⟩
    · simp [hcr, hmap]
    · simp [hrun, hresp]

/-- At the end of the run a command's response stands at the command's own place, after the earlier responses. -/
theorem State.Ready.run_getElem? {s : State} (hs : s.Ready) {c : Cmd} {pre post : List Cmd}
    (hp : s.pending = pre ++ c :: post) :
    ∃ t r, runSteps s s.pending.length = .next t ∧ commandResponse c = some r ∧
      t.responses[s.responses.length + pre.length]? = some r := by
  obtain ⟨t, rs, ht, -, hmap, hresp⟩ := hs.run
  have hat : some (commandResponse c) = rs[pre.length]?.map some := by
    rw [← List.getElem?_map, ← hmap, hp]
    simp
  obtain ⟨r, hr, hcr⟩ := Option.map_eq_some_iff.mp hat.symm
  refine ⟨t, r, ht, hcr.symm, ?_⟩
  rw [hresp, List.getElem?_append_right (Nat.le_add_right _ _), Nat.add_sub_cancel_left, hr]

end Sys2Proof.Machine
end

section
/-! The statements of reset and of runs (spec/70_reset_and_hazards.md). -/

namespace Sys2Proof.Machine

/-- Settles O45: a ready state steps to a ready state, and a step has one outcome. -/
theorem stepKeepsTheCommandsRunnable : Obligations.StepKeepsTheCommandsRunnable := by
  intro s hs
  obtain ⟨t, ht, hready⟩ := hs.exists_step
  refine ⟨⟨t, ht⟩, fun u hu => ?_⟩
  cases ht.symm.trans hu
  exact hready

/-- Settles O11: the step is `applyReset`, which drops the head and takes the input back, so the next step takes a command
as any step without reset does. -/
theorem resetAbandonsTheCommand : Obligations.ResetAbandonsTheCommand := by
  intro s hs
  refine ⟨applyReset s, step_of_resetLine s hs, applyReset_responses s, applyReset_pending s, applyReset_buf s,
    applyReset_resetLine s, fun c rest hp hw => ?_⟩
  obtain ⟨u, r, hu, hcr, hresp, -⟩ := step_delivers_commandResponse _ c rest (applyReset_resetLine s) hp hw
  exact ⟨u, r, hu, hcr, hresp⟩

/-- Settles O12: the command issued at reset stands first, and no earlier response stands before its own. -/
theorem firstCommandAfterResetIsLikeAnyOther : Obligations.FirstCommandAfterResetIsLikeAnyOther := by
  refine ⟨rfl, fun c hw => ?_⟩
  obtain ⟨t, r, ht, hcr, hresp, -⟩ := step_delivers_commandResponse (issue c State.reset) c [] rfl rfl hw
  exact ⟨t, r, ht, hcr, hresp⟩

/-- Settles O42: the hypotheses say that the state is ready. -/
theorem runDeliversEveryResponse : Obligations.RunDeliversEveryResponse :=
  fun _ hr hall => State.Ready.run ⟨hr, hall⟩

/-- Settles O43: in both runs the response at the command's place is `commandResponse` of the command. -/
theorem orderOfCommandsDoesNotMatter : Obligations.OrderOfCommandsDoesNotMatter := by
  intro s₁ s₂ c pre₁ post₁ pre₂ post₂ hr₁ hr₂ hp₁ hp₂ hall₁ hall₂
  obtain ⟨t₁, r₁, ht₁, hc₁, hget₁⟩ := State.Ready.run_getElem? ⟨hr₁, hall₁⟩ hp₁
  obtain ⟨t₂, r₂, ht₂, hc₂, hget₂⟩ := State.Ready.run_getElem? ⟨hr₂, hall₂⟩ hp₂
  obtain rfl : r₁ = r₂ := Option.some.inj (hc₁.symm.trans hc₂)
  exact ⟨t₁, t₂, r₁, ht₁, ht₂, hget₁, hget₂⟩

end Sys2Proof.Machine
end

section
/-! The statements of the written-out records, of waiting and of the reset state. -/

namespace Sys2Proof.Machine

/-- Settles O7: the equation of each record's code, its operands read off the record's numerals. -/
theorem writtenOutRecordsDecode : Obligations.WrittenOutRecordsDecode := by
  refine ⟨?siphash, ?siphash32, ?siphash64k256, decode_of_op_reserved (.inl rfl)⟩
  case siphash => simp [decode_of_op_zero, decodeMessage_of_length_eq, keyWord]
  case siphash32 => simp [decode_of_op_one, keyWord, lowHalf]
  case siphash64k256 => simp [decode_of_op_four, keyWord]

/-- Settles O10: the waiting case of the step. -/
theorem engineWaitsWithNoCommand : Obligations.EngineWaitsWithNoCommand := step_of_pending_nil

/-- Settles O46: the queue is empty, so no issued command is to be checked. -/
theorem resetIsReady : Obligations.ResetIsReady := ⟨rfl, List.forall_mem_nil _⟩

end Sys2Proof.Machine
end
